-- ==== Sys2Proof/Word.lean ====
section
/-! DEFINITION. The words of the core: the 40-bit command word (R90), bits, octets and bit sequences (R7, R8). -/

namespace Sys2Proof

/-- One bit of a bit sequence (R8): `false` is 0, `true` is 1. -/
abbrev Bit := Bool

/-- A bit sequence (R8): element 0 is the first in stream order. -/
abbrev Bits := List Bit

/-- An octet (R6, "octet width"). -/
abbrev Octet := BitVec 8

/-- A command word, `cmd[39:0]` (R90). -/
abbrev CmdWord := BitVec 40

/-- A 32-bit value: the CRC register, the default noise register, a noise sample (R6). -/
abbrev Word32 := BitVec 32

/-- The 36-bit operand field `cmd[35:0]` of formats K and T (R91). -/
abbrev Operand36 := BitVec 36

/-- `zeros(n)` of R8. -/
def zeros (n : Nat) : Bits := List.replicate n false

end Sys2Proof
end

