-- ==== Sys2Proof/Syntax.lean ====
section
/-! DEFINITION. The ten commands of the opcode map (R93), one constructor per row of spec/opcode_table.json. -/

namespace Sys2Proof

/-- A decoded command that is not `Reserved` (R95). An operand is held at the width of its field (R91, R92),
so a term of this type always has an encoding. -/
inductive Instr where
  /-- `NOP` (R253). -/
  | nop
  /-- `CLR` (R254). -/
  | clr
  /-- `PUTB imm8` (R133). -/
  | putb (imm8 : Octet)
  /-- `PUTSYM imm8` (R134). -/
  | putsym (imm8 : Octet)
  /-- `DECB` (R135). -/
  | decb
  /-- `ENCCRC` (R159). -/
  | enccrc
  /-- `ENCHAM kop` (R193). -/
  | encham (kop : Operand36)
  /-- `SEED seed` (R227). -/
  | seed (seed : Word32)
  /-- `NOISE T` (R228). -/
  | noise (threshold : Operand36)
  /-- `FRAME` (R255). -/
  | frame
  deriving DecidableEq, Repr

end Sys2Proof
end

