-- ==== Sys2Proof/WellFormed.lean ====
section
/-! DEFINITION. Which words and which commands are well formed (R91, R94).
The must-be-zero checks are on the word, where they can fail. A term of `Instr` has each operand at the width of
its field, so every one of them can be encoded; out-of-range VALUES (`kop`, `T`, a character code) are well formed
and are refused by value, in the command's meaning (R91, R92). -/

namespace Sys2Proof

/-- The opcode `cmd[39:36]` (R90). -/
def opcodeOf (w : CmdWord) : Nat := (w.extractLsb' 36 4).toNat

/-- First check of R94: the opcode is one of 0x0 to 0x9. -/
def opcodeAssigned (w : CmdWord) : Bool := opcodeOf w ≤ 9

/-- The values an operand of each opcode can have are those below this bound: the rest of `cmd[35:0]` is
must-be-zero (R91: format N no bits, B eight, S thirty-two, K and T all thirty-six). -/
def operandBound (op : Nat) : Nat :=
  match op with
  | 2 => 0x100
  | 3 => 0x100
  | 6 => 0x1000000000
  | 7 => 0x100000000
  | 8 => 0x1000000000
  | _ => 1

/-- Second check of R94: no must-be-zero bit of the word's format is 1. -/
def mbzClear (w : CmdWord) : Bool := (w.extractLsb' 0 36).toNat < operandBound (opcodeOf w)

/-- A word that is not reserved (R94). -/
def wordWellFormed (w : CmdWord) : Bool := opcodeAssigned w && mbzClear w

/-- The operand of a command as an unsigned number (R92), 0 for the commands without one. -/
def Instr.operand : Instr → Nat
  | .nop => 0
  | .clr => 0
  | .putb imm8 => imm8.toNat
  | .putsym imm8 => imm8.toNat
  | .decb => 0
  | .enccrc => 0
  | .encham kop => kop.toNat
  | .seed sd => sd.toNat
  | .noise t => t.toNat
  | .frame => 0

/-- The opcode a command is written with (R93). -/
def Instr.opcode : Instr → Nat
  | .nop => 0
  | .clr => 1
  | .putb _ => 2
  | .putsym _ => 3
  | .decb => 4
  | .enccrc => 5
  | .encham _ => 6
  | .seed _ => 7
  | .noise _ => 8
  | .frame => 9

/-- The operand fits the field its format gives it (R91). The widths of `Instr`'s arguments make it true of every
term; it is the one place that says so. -/
def Instr.wellFormed (i : Instr) : Bool := i.operand < operandBound i.opcode

end Sys2Proof
end

