-- ==== Sys2Proof/Decode.lean ====
section
/-! DEFINITION. The decoder (R95), total on 40-bit words, and the encoder, its inverse on the words that are not
reserved. The command word is one parallel value with no byte order (R64), so decoding starts from the word. -/

namespace Sys2Proof

/-- Why a word is `Reserved` (R94). -/
inductive DecodeError where
  /-- The opcode is 0xA to 0xF. -/
  | reservedOpcode (op : Nat)
  /-- The opcode is assigned and a must-be-zero bit of its format is 1. -/
  | mustBeZero (op : Nat)
  deriving DecidableEq, Repr

/-- The operand field `cmd[35:0]` (R90). -/
def operandField (w : CmdWord) : Operand36 := w.extractLsb' 0 36

/-- Format N (R91): no operand. -/
def decodeN (op : Nat) (i : Instr) (w : CmdWord) : Except DecodeError Instr :=
  if operandField w = 0 then .ok i else .error (.mustBeZero op)

/-- Format B (R91): `imm8 = cmd[7:0]`, `cmd[35:8]` zero. -/
def decodeB (op : Nat) (mk : Octet → Instr) (w : CmdWord) : Except DecodeError Instr :=
  if w.extractLsb' 8 28 = 0 then .ok (mk (w.extractLsb' 0 8)) else .error (.mustBeZero op)

/-- Format S (R91): `seed = cmd[31:0]`, `cmd[35:32]` zero. -/
def decodeS (op : Nat) (mk : Word32 → Instr) (w : CmdWord) : Except DecodeError Instr :=
  if w.extractLsb' 32 4 = 0 then .ok (mk (w.extractLsb' 0 32)) else .error (.mustBeZero op)

/-- `decode` of R95; an error is the result `Reserved`, with its reason. -/
def decode (w : CmdWord) : Except DecodeError Instr :=
  match opcodeOf w with
  | 0x0 => decodeN 0x0 .nop w
  | 0x1 => decodeN 0x1 .clr w
  | 0x2 => decodeB 0x2 .putb w
  | 0x3 => decodeB 0x3 .putsym w
  | 0x4 => decodeN 0x4 .decb w
  | 0x5 => decodeN 0x5 .enccrc w
  | 0x6 => .ok (.encham (operandField w))
  | 0x7 => decodeS 0x7 .seed w
  | 0x8 => .ok (.noise (operandField w))
  | 0x9 => decodeN 0x9 .frame w
  | op => .error (.reservedOpcode op)

/-- A word with the opcode in `cmd[39:36]` and the number `v` in `cmd[35:0]` (R90, R92). -/
def wordOf (op v : Nat) : CmdWord := BitVec.ofNat 40 (op * 0x1000000000 + v)

/-- `encode` of R95: the opcode in `cmd[39:36]`, the operand in its bits, zero elsewhere. -/
def encode : Instr → CmdWord
  | .nop => wordOf 0x0 0
  | .clr => wordOf 0x1 0
  | .putb imm8 => wordOf 0x2 imm8.toNat
  | .putsym imm8 => wordOf 0x3 imm8.toNat
  | .decb => wordOf 0x4 0
  | .enccrc => wordOf 0x5 0
  | .encham kop => wordOf 0x6 kop.toNat
  | .seed sd => wordOf 0x7 sd.toNat
  | .noise t => wordOf 0x8 t.toNat
  | .frame => wordOf 0x9 0

/-- One row of spec/opcode_table.json: a word `w` is the row's command when `(w AND mask) = match` (R95). -/
structure OpcodeRow where
  mnemonic : String
  pattern : CmdWord
  mask : CmdWord
  deriving DecidableEq, Repr

/-- The ten rows of spec/opcode_table.json, in its order. -/
def opcodeTable : List OpcodeRow :=
  [ ⟨"NOP",    0x0000000000#40, 0xFFFFFFFFFF#40⟩,
    ⟨"CLR",    0x1000000000#40, 0xFFFFFFFFFF#40⟩,
    ⟨"PUTB",   0x2000000000#40, 0xFFFFFFFF00#40⟩,
    ⟨"PUTSYM", 0x3000000000#40, 0xFFFFFFFF00#40⟩,
    ⟨"DECB",   0x4000000000#40, 0xFFFFFFFFFF#40⟩,
    ⟨"ENCCRC", 0x5000000000#40, 0xFFFFFFFFFF#40⟩,
    ⟨"ENCHAM", 0x6000000000#40, 0xF000000000#40⟩,
    ⟨"SEED",   0x7000000000#40, 0xFF00000000#40⟩,
    ⟨"NOISE",  0x8000000000#40, 0xF000000000#40⟩,
    ⟨"FRAME",  0x9000000000#40, 0xFFFFFFFFFF#40⟩ ]

/-- The word is the row's command (R95). -/
def OpcodeRow.fits (row : OpcodeRow) (w : CmdWord) : Bool := w &&& row.mask == row.pattern

/-- A command's mnemonic (R93). -/
def mnemonicOf : Instr → String
  | .nop => "NOP"
  | .clr => "CLR"
  | .putb _ => "PUTB"
  | .putsym _ => "PUTSYM"
  | .decb => "DECB"
  | .enccrc => "ENCCRC"
  | .encham _ => "ENCHAM"
  | .seed _ => "SEED"
  | .noise _ => "NOISE"
  | .frame => "FRAME"

/-- The command word whose bits are `w`, of which the table gives `nbits` (R90: always 40); bit 0 of `w` is `cmd[0]`. -/
def tableWord (nbits w : Nat) : CmdWord := BitVec.ofNat 40 (w % 2 ^ nbits)

/-- What the decoder reads from the instruction whose bits are `w`. -/
def decodeTableWord (nbits w : Nat) : Option Instr :=
  match decode (tableWord nbits w) with
  | .ok i => some i
  | .error _ => none

end Sys2Proof
end

