-- ==== Sys2Proof/Config.lean ====
section
/-! DEFINITION. What an implementation fixes: the random source (R221) and the capacity (R70). -/

namespace Sys2Proof

/-- `RandomSource` of R221 over the state type `σ` (the rule's `RngState`): the state after hardware reset, the state
after `SEED`, and the next state with one 32-bit sample. The contract rules assume nothing about the functions. -/
structure RandomSource (σ : Type) where
  /-- `rng_reset`. -/
  rngReset : σ
  /-- `rng_seed`. -/
  rngSeed : Word32 → σ
  /-- `rng_next`. -/
  rngNext : σ → σ × Word32
  deriving Inhabited

/-- The OPEN value of the parameter `RandomSource` (R6, R221, R230; D14): some source whose states are numbered by
the natural numbers. It has no body that a proof can see, so what is proved of a core that uses it holds whichever
source the implementation has. Log 3. -/
opaque Config.externalSource : RandomSource Nat

/-- The spec's default of the parameter `CAP` (R6: "default unbounded"). DESIGN CHOICE, log 2: a core right after
`State.reset` is the default one; statements are about every value of the field `cap`. -/
def Config.defaultCap : Option Nat := none

end Sys2Proof
end

