-- ==== Sys2Proof/Machine/State.lean ====
section
/-! DEFINITION. The state of the core (R20), what it is right after reset (R35), and why a step could stop. -/

namespace Sys2Proof.Machine

/-- The values of `fsm` (R21); their numbers are `fsmCode`. -/
inductive Fsm where
  | idle
  | messageLoaded
  | encoded
  | noised
  | framed
  | fault
  deriving DecidableEq, Repr

/-- The values of `err` (R22, R280); their numbers are `errCode`. -/
inductive ErrKind where
  | noError
  | invalidSymbol
  | malformedInput
  | invalidBlockSize
  | invalidProbability
  | emptyMessage
  | sequenceError
  | illegalCommand
  | capacityExceeded
  deriving DecidableEq, Repr

/-- The values of `algo` (R28); their numbers are `algoCode`. -/
inductive Algo where
  | none
  | crc32
  | hamming
  deriving DecidableEq, Repr

/-- The state of the noise generator (R32, R221): of the default instance, the 32-bit register `lfsr` (R225), or of
the open source `Config.externalSource`. Which of the two a core has is fixed; no step changes it. Log 3. -/
inductive RngState where
  | lfsr (v : Word32)
  | external (n : Nat)
  deriving DecidableEq, Repr

/-- What the host puts on the pins in one cycle (D2): `rst` (R320), `cmd_valid` and `cmd` (R90, R323). -/
structure PortCycle where
  rst : Bool
  cmdValid : Bool
  cmd : CmdWord
  deriving DecidableEq, Repr

/-- The architectural state of R20, then the model's own two fields. -/
structure State where
  /-- The sequencing state (R21). -/
  fsm : Fsm
  /-- The recorded error kind (R22). -/
  err : ErrKind
  /-- The message buffer (R23). -/
  M : Bits
  /-- The count of octets loaded by `PUTB` (R24). -/
  msgLen : Nat
  /-- The frame buffer (R25). -/
  F : Bits
  /-- The octet buffer (R26). -/
  B : List Octet
  /-- The CRC shift register (R27). -/
  crc : Word32
  /-- Which encoder produced `F` (R28). -/
  algo : Algo
  /-- Hamming data bits per block (R29). -/
  k : BitVec 7
  /-- Hamming parity bits per block (R30). -/
  r : BitVec 3
  /-- Zero bits added by the last `ENCHAM` (R31). -/
  padBits : BitVec 6
  /-- The noise generator's state (R32). -/
  lfsr : RngState
  /-- Configuration, not the spec's state: the parameter `CAP` (R6, R70), `none` for unbounded. Log 2. -/
  cap : Option Nat
  /-- The host, not the spec's state: the pin cycles it has still to present, the next one first. Log 1. -/
  port : List PortCycle
  deriving DecidableEq, Repr

/-- Why the machine would stop with a fault: it never does. The spec's errors are taken in a next state (R290) and
its step function is total (R259), so nothing raises a value of this type. Safe. Log 9. -/
inductive Fault where
  deriving DecidableEq, Repr

/-- Why an instruction would have no meaning. -/
inductive Refusal where
  /-- Raised by an arm of `exec` whose command has no meaning yet. No arm raises it now. Safe. -/
  | notModelled (mnemonic : String)
  deriving DecidableEq, Repr

/-- The machine right after hardware reset (R35, R321), with the default parameters (R6) and a host that has presented
nothing yet. -/
def State.reset : State where
  fsm := .idle
  err := .noError
  M := []
  msgLen := 0
  F := []
  B := []
  crc := 0xFFFFFFFF#32
  algo := .none
  k := 0
  r := 0
  padBits := 0
  lfsr := .lfsr 0xFFFFFFFF#32
  cap := Config.defaultCap
  port := []

end Sys2Proof.Machine
end

