-- ==== Sys2Proof/Machine/Flags.lean ====
section
/-! DEFINITION. The outputs of the core (D2, R34): functions of the state, read by no command. There are no condition
codes (R34). -/

namespace Sys2Proof.Machine

/-- The numbers of R21. -/
def fsmCode : Fsm → BitVec 3
  | .idle => 0
  | .messageLoaded => 1
  | .encoded => 2
  | .noised => 3
  | .framed => 4
  | .fault => 5

/-- The codes of R280, the format of the output `err` (R101). -/
def errCode : ErrKind → BitVec 4
  | .noError => 0
  | .invalidSymbol => 1
  | .malformedInput => 2
  | .invalidBlockSize => 3
  | .invalidProbability => 4
  | .emptyMessage => 5
  | .sequenceError => 6
  | .illegalCommand => 7
  | .capacityExceeded => 8

/-- The numbers of R28. -/
def algoCode : Algo → BitVec 2
  | .none => 0
  | .crc32 => 1
  | .hamming => 2

/-- The output `fault` (R34, R294). -/
def faultOut (s : State) : Bool := s.fsm == .fault

/-- The output `rec_valid` (R34, R99). -/
def recValid (s : State) : Bool := s.fsm == .framed

/-- The output `cmd_ready`: always 1 in the model (R34, R323). Log 7. -/
def cmdReady (_s : State) : Bool := true

/-- The frame read port (R67): `some F[f_addr]` where `f_valid = 1`; past the end `f_valid = 0` and there is no
value (R68, U5). Log 8. -/
def frameRead (s : State) (fAddr : Nat) : Option Bit := s.F[fAddr]?

/-- The octet read port (R67), likewise. -/
def octetRead (s : State) (bAddr : Nat) : Option Octet := s.B[bAddr]?

/-- All the outputs of D2. `fBit` and `bByte` are `none` exactly where the valid bit is 0. -/
structure Outputs where
  cmdReady : Bool
  fault : Bool
  recValid : Bool
  fsmState : BitVec 3
  err : BitVec 4
  algo : BitVec 2
  k : BitVec 7
  r : BitVec 3
  padBits : BitVec 6
  crcValue : Word32
  msgLen : Nat
  mlen : Nat
  flen : Nat
  blen : Nat
  fValid : Bool
  fBit : Option Bit
  bValid : Bool
  bByte : Option Octet
  deriving DecidableEq, Repr

/-- What the pins show between steps for the read addresses the host applies (D2, R34, R67, R99). -/
def outputs (s : State) (fAddr bAddr : Nat) : Outputs where
  cmdReady := cmdReady s
  fault := faultOut s
  recValid := recValid s
  fsmState := fsmCode s.fsm
  err := errCode s.err
  algo := algoCode s.algo
  k := s.k
  r := s.r
  padBits := s.padBits
  crcValue := s.crc
  msgLen := s.msgLen
  mlen := s.M.length
  flen := s.F.length
  blen := s.B.length
  fValid := decide (fAddr < s.F.length)
  fBit := frameRead s fAddr
  bValid := decide (bAddr < s.B.length)
  bByte := octetRead s bAddr

/-- The fields of the transport record (R99): the document's five, then `k` and `crc_value`, which the core shows too. -/
structure TransportRecord where
  msgLen : Nat
  algo : Algo
  frameBits : Bits
  padBits : BitVec 6
  r : BitVec 3
  k : BitVec 7
  crcValue : Word32
  deriving DecidableEq, Repr

/-- The record, valid and final only while `rec_valid = 1` (R99, R256); no record may be taken otherwise (R291, R326). -/
def recordOf (s : State) : Option TransportRecord :=
  if recValid s then
    some { msgLen := s.msgLen, algo := s.algo, frameBits := s.F, padBits := s.padBits, r := s.r, k := s.k,
           crcValue := s.crc }
  else none

end Sys2Proof.Machine
end

