-- ==== Sys2Proof/Machine/Operands.lean ====
section
/-! DEFINITION. The operand forms: what a command makes of its operand's value (R92). Every operand is unsigned,
taken straight from its field; a value out of range is refused here, by value, not by encoding (R91). -/

namespace Sys2Proof.Machine

/-- The operand of `PUTSYM` (R134): the code 0x30 is the character `0`, 0x31 the character `1`, no other code is a
symbol (R281). -/
def symbolBit (imm8 : Octet) : Option Bit :=
  if imm8 = 0x30#8 then some false
  else if imm8 = 0x31#8 then some true
  else none

/-- The operand of `ENCHAM` (R193): a block size 1 to 64 (R182), otherwise refused (R283). -/
def blockSize (kop : Operand36) : Option Nat :=
  if kop.toNat < 1 || 64 < kop.toNat then none else some kop.toNat

/-- The operand of `NOISE` (R228): a threshold 0 to 2^32 (R223), otherwise refused (R284). -/
def flipThreshold (t : Operand36) : Option Operand36 :=
  if 0x100000000 < t.toNat then none else some t

end Sys2Proof.Machine
end

