-- ==== Sys2Proof/Machine/Ops.lean ====
section
/-! DEFINITION. The shared operations: the buffers (R10, R60), the capacity bound (R70), taking an error and the one
way back (R290, R292), the legality table (R252), performing a command (R259), reset (R320), the command port (R323). -/

namespace Sys2Proof.Machine

/-! ### Buffers -/

/-- `MemRead(X, i, n)` of R10: defined only when `i + n <= len(X)`. -/
def memRead {α : Type} (X : List α) (i n : Nat) : Option (List α) :=
  if i + n ≤ X.length then some ((X.drop i).take n) else none

/-- `MemWrite(X, i, n, v)` of R10: defined only when `i + n <= len(X)` and `v` has `n` elements. -/
def memWrite {α : Type} (X : List α) (i n : Nat) (v : List α) : Option (List α) :=
  if i + n ≤ X.length ∧ v.length = n then some (X.take i ++ v ++ X.drop (i + n)) else none

/-- `MemAppend(X, v)` of R10. -/
def memAppend {α : Type} (X v : List α) : List α := X ++ v

/-- `MemClear(X)` of R10. -/
def memClear {α : Type} (_X : List α) : List α := []

/-- A buffer of `n` bits would exceed `CAP` (R70, R288); never with `CAP` unbounded. -/
def exceedsCap (cap : Option Nat) (n : Nat) : Bool :=
  match cap with
  | none => false
  | some c => decide (c < n)

/-- The form the storage always has (R70): no buffer holds more than `CAP` bits, `B` counted as 8 bits an octet. -/
def Memory.wf (s : State) : Bool :=
  !exceedsCap s.cap s.M.length && !exceedsCap s.cap s.F.length && !exceedsCap s.cap (8 * s.B.length)

/-! ### Errors -/

/-- Fault entry, `raise K` (R290): on the state before the command, so that every write of the command is discarded;
`err` takes the kind, `fsm` becomes `Fault`, nothing else changes and nothing is saved. -/
def raiseError (kind : ErrKind) (s : State) : State := { s with err := kind, fsm := .fault }

/-- The one return from `Fault` (R292) and the pseudocode of `CLR` (R254): everything but `lfsr` at its reset value. -/
def clearRun (s : State) : State :=
  { s with
    M := memClear s.M, F := memClear s.F, B := memClear s.B, msgLen := 0, crc := 0xFFFFFFFF#32, algo := .none,
    k := 0, r := 0, padBits := 0, err := .noError, fsm := .idle }

/-! ### The legality table and the performing of a command -/

/-- The entries of the table of R252, but `Ill`, which only `Reserved` has (`takeReserved`). -/
inductive Legality where
  /-- "ok": the command's own rule is performed. -/
  | ok
  /-- "Seq": SequenceError is raised. -/
  | seq
  /-- "Empty": EmptyMessage is raised. -/
  | empty
  /-- "ign": ignored, no state changes. -/
  | ign
  deriving DecidableEq, Repr

/-- The table of R252, row by row. -/
def legality (i : Instr) (f : Fsm) : Legality :=
  match i with
  | .nop =>
    match f with
    | .idle => .ok | .messageLoaded => .ok | .encoded => .ok | .noised => .ok | .framed => .ok | .fault => .ign
  | .clr => .ok
  | .putb _ =>
    match f with
    | .idle => .ok | .messageLoaded => .ok | .encoded => .seq | .noised => .seq | .framed => .seq | .fault => .ign
  | .putsym _ =>
    match f with
    | .idle => .ok | .messageLoaded => .ok | .encoded => .seq | .noised => .seq | .framed => .seq | .fault => .ign
  | .decb =>
    match f with
    | .idle => .ok | .messageLoaded => .ok | .encoded => .seq | .noised => .seq | .framed => .seq | .fault => .ign
  | .enccrc =>
    match f with
    | .idle => .empty | .messageLoaded => .ok | .encoded => .seq | .noised => .seq | .framed => .seq | .fault => .ign
  | .encham _ =>
    match f with
    | .idle => .empty | .messageLoaded => .ok | .encoded => .seq | .noised => .seq | .framed => .seq | .fault => .ign
  | .seed _ =>
    match f with
    | .idle => .ok | .messageLoaded => .ok | .encoded => .ok | .noised => .seq | .framed => .seq | .fault => .ign
  | .noise _ =>
    match f with
    | .idle => .seq | .messageLoaded => .seq | .encoded => .ok | .noised => .seq | .framed => .seq | .fault => .ign
  | .frame =>
    match f with
    | .idle => .seq | .messageLoaded => .seq | .encoded => .seq | .noised => .ok | .framed => .seq | .fault => .ign

/-- The command part of `step` (R259) for a decoded command `i` whose pseudocode is `body`: the table first (R293,
priorities 1 and 3), then the pseudocode, which either finishes or raises one error (priorities 4 and 5). -/
def perform (i : Instr) (body : State → Except ErrKind State) (s : State) : State :=
  match legality i s.fsm with
  | .ign => s
  | .seq => raiseError .sequenceError s
  | .empty => raiseError .emptyMessage s
  | .ok =>
    match body s with
    | .ok t => t
    | .error kind => raiseError kind s

/-- A reserved word (R94, R287; the row `Reserved` of R252): IllegalCommand, ignored in `Fault`. -/
def takeReserved (s : State) : State :=
  match s.fsm with
  | .fault => s
  | .idle => raiseError .illegalCommand s
  | .messageLoaded => raiseError .illegalCommand s
  | .encoded => raiseError .illegalCommand s
  | .noised => raiseError .illegalCommand s
  | .framed => raiseError .illegalCommand s

/-! ### Reset and the command port -/

/-- `rng_seed` of the default instance (R225): a zero seed loads 0xFFFFFFFF. -/
def lfsrSeed (seed : Word32) : Word32 := if seed = 0x00000000#32 then 0xFFFFFFFF#32 else seed

/-- `rng_reset` of the default instance (R225). -/
def lfsrReset : Word32 := 0xFFFFFFFF#32

/-- `rng_reset` of the instance the core has (R221). -/
def rngReset : RngState → RngState
  | .lfsr _ => .lfsr lfsrReset
  | .external _ => .external Config.externalSource.rngReset

/-- A cycle with `rst = 1` (R320): every piece of state at its reset value (R35), `lfsr` too. The configuration and
the host's further cycles are not the core's state and stay. Log 6. -/
def hardReset (s : State) : State :=
  { State.reset with lfsr := rngReset s.lfsr, cap := s.cap, port := s.port }

/-- One cycle of the command port (R90, R320, R323): the word the core takes, if it takes one, and the state in which
it is performed. With nothing presented, or `cmd_valid = 0`, nothing happens (R259); `rst = 1` resets and the word
presented with it is not performed (R320). Log 1. -/
def fetch (s : State) : Option CmdWord × State :=
  match s.port with
  | [] => (none, s)
  | c :: rest =>
    let t := { s with port := rest }
    if c.rst then (none, hardReset t)
    else if c.cmdValid && cmdReady t then (some c.cmd, t)
    else (none, t)

end Sys2Proof.Machine
end

