-- ==== Sys2Proof/Machine/BitConverter.lean ====
section
/-! DEFINITION. The BitConverter unit: octets to bits and back (R130, R131), `PUTB`, `PUTSYM`, `DECB`. -/

namespace Sys2Proof.Machine

/-- The 8 bits of an octet, most significant first (R62). -/
def octetBits (b : Octet) : Bits := (List.range 8).map fun i => b.getLsbD (7 - i)

/-- The octet whose bits are the given 8, most significant first (R62). -/
def octetOf (bits : Bits) : Octet := BitVec.ofNat 8 (bits.foldl (fun acc b => 2 * acc + b.toNat) 0)

/-- `bytes_to_bits(x)` of R130. -/
def bytesToBits (x : List Octet) : Bits := x.flatMap octetBits

/-- The first `n` groups of 8 bits, as octets. -/
def octetGroups : Nat → Bits → List Octet
  | 0, _ => []
  | n + 1, X => octetOf (X.take 8) :: octetGroups n (X.drop 8)

/-- `bits_to_bytes(X)` of R131: no value when `len(X)` is not a multiple of 8. -/
def bitsToBytes (X : Bits) : Option (List Octet) :=
  if X.length % 8 ≠ 0 then none else some (octetGroups (X.length / 8) X)

/-- The pseudocode of `PUTB` (R133). -/
def putbBody (imm8 : Octet) (s : State) : Except ErrKind State :=
  if exceedsCap s.cap (s.M.length + 8) then .error .capacityExceeded
  else .ok { s with M := memAppend s.M (octetBits imm8), msgLen := s.msgLen + 1, fsm := .messageLoaded }

/-- `PUTB imm8` (R133). -/
def execPutb (imm8 : Octet) (s : State) : Host.Outcome State Fault Refusal :=
  .next (perform (.putb imm8) (putbBody imm8) s)

/-- The pseudocode of `PUTSYM` (R134): the symbol is checked before the capacity (R293). -/
def putsymBody (imm8 : Octet) (s : State) : Except ErrKind State :=
  match symbolBit imm8 with
  | none => .error .invalidSymbol
  | some b =>
    if exceedsCap s.cap (s.M.length + 1) then .error .capacityExceeded
    else .ok { s with M := memAppend s.M [b], fsm := .messageLoaded }

/-- `PUTSYM imm8` (R134). -/
def execPutsym (imm8 : Octet) (s : State) : Host.Outcome State Fault Refusal :=
  .next (perform (.putsym imm8) (putsymBody imm8) s)

/-- The pseudocode of `DECB` (R135). -/
def decbBody (s : State) : Except ErrKind State :=
  match bitsToBytes s.M with
  | none => .error .malformedInput
  | some octets => .ok { s with B := octets }

/-- `DECB` (R135). -/
def execDecb (s : State) : Host.Outcome State Fault Refusal :=
  .next (perform .decb decbBody s)

end Sys2Proof.Machine
end

