-- ==== Sys2Proof/Machine/Crc32.lean ====
section
/-! DEFINITION. The CRC-32 bit-serial generator (R150 to R156) and `ENCCRC`. -/

namespace Sys2Proof.Machine

/-- `POLY` of R150. -/
def crcPoly : Word32 := 0x04C11DB7#32

/-- `INIT` of R150. -/
def crcInit : Word32 := 0xFFFFFFFF#32

/-- `XOROUT` of R150. -/
def crcXorOut : Word32 := 0xFFFFFFFF#32

/-- `crc_step(R, b)` of R152: the top bit is read before the shift; the input bit acts only through the feedback. -/
def crcStep (R : Word32) (b : Bit) : Word32 :=
  let feedback := Bool.xor (R.getLsbD 31) b
  let shifted := R <<< 1
  if feedback then shifted ^^^ crcPoly else shifted

/-- The register after the bits of `X`, in stream order, from `R`: `fold(crc_step, R, X)` (R10, R154). -/
def crcFold (R : Word32) (X : Bits) : Word32 := X.foldl crcStep R

/-- `crc32_compute(X)` of R154. Its value on the empty sequence is a property of the function only (R158). Log 10. -/
def crc32Compute (X : Bits) : Word32 := crcFold crcInit X ^^^ crcXorOut

/-- `to_bits(V)` of R155: 32 bits, most significant first (R63). -/
def toBits (V : Word32) : Bits := (List.range 32).map fun i => V.getLsbD (31 - i)

/-- `append_checksum(X)` of R156. -/
def appendChecksum (X : Bits) : Bits := X ++ toBits (crc32Compute X)

/-- The second view of a CRC32Value (R100): hexadecimal digit `j` from the left is `V[31 - 4j : 28 - 4j]`; turning a
digit into a character is software's (D28). -/
def hexDigits (V : Word32) : List (BitVec 4) := (List.range 8).map fun j => V.extractLsb' (28 - 4 * j) 4

/-- The pseudocode of `ENCCRC` (R159). -/
def enccrcBody (s : State) : Except ErrKind State :=
  if exceedsCap s.cap (s.M.length + 32) then .error .capacityExceeded
  else
    let crc := crcFold crcInit s.M ^^^ crcXorOut
    .ok { s with
      crc := crc, F := s.M ++ toBits crc, algo := .crc32, k := 0, r := 0, padBits := 0, fsm := .encoded }

/-- `ENCCRC` (R159). -/
def execEnccrc (s : State) : Host.Outcome State Fault Refusal :=
  .next (perform .enccrc enccrcBody s)

end Sys2Proof.Machine
end

