-- ==== Sys2Proof/Machine/FrameBuilder.lean ====
section
/-! DEFINITION. The FrameBuilder sequencer's own commands: `NOP`, `CLR`, `FRAME`. -/

namespace Sys2Proof.Machine

/-- `NOP` (R253): no write. -/
def execNop (s : State) : Host.Outcome State Fault Refusal :=
  .next (perform .nop .ok s)

/-- `CLR` (R254), legal in every state; the one return from `Fault` (R292). -/
def execClr (s : State) : Host.Outcome State Fault Refusal :=
  .next (perform .clr (fun t => .ok (clearRun t)) s)

/-- The pseudocode of `FRAME` (R255). -/
def frameBody (s : State) : Except ErrKind State := .ok { s with fsm := .framed }

/-- `FRAME` (R255). -/
def execFrame (s : State) : Host.Outcome State Fault Refusal :=
  .next (perform .frame frameBody s)

end Sys2Proof.Machine
end

