-- ==== Sys2Proof/Machine/Hamming.lean ====
section
/-! DEFINITION. The Hamming SEC encoder: sizing (R180), bit-position mapper (R183, R185), parity tree (R186), block and
stream encoding (R188, R190), and `ENCHAM`. Positions in a block are 1-based; position `j` is element `j - 1` (R9). -/

namespace Sys2Proof.Machine

/-! ### Sizing -/

/-- The loop of R180 from `r` on, `r` rising until `2^r >= k + r + 1`; at most `fuel` more increments. -/
def redundancySearch (k : Nat) : Nat → Nat → Nat
  | 0, r => r
  | fuel + 1, r => if 2 ^ r < k + r + 1 then redundancySearch k fuel (r + 1) else r

/-- `redundancy_for(k)` of R180. The search needs no more than `k + 1` increments, since `2^(k+1) >= 2k + 2`. For
`k = 0`, outside the rule, see log 10. -/
def redundancyFor (k : Nat) : Nat := redundancySearch k (k + 1) 0

/-! ### Bit-position mapper -/

/-- `is_pow2(j)` of R183, for `j >= 1`: `j AND (j - 1) = 0`. -/
def isPow2 (j : Nat) : Bool := j ≠ 0 && j &&& (j - 1) == 0

/-- The next data position after position `p`: no two positions past 2 in a row are powers of two. -/
def nextDataPos (p : Nat) : Nat := if isPow2 (p + 1) then p + 2 else p + 1

/-- `datapos(d)` of R183, for `d >= 1`: the `d`-th data position in increasing order. Position 2 is the last one
before the first data position, which is what `d = 0` stands for here. -/
def dataPos : Nat → Nat
  | 0 => 2
  | d + 1 => nextDataPos (dataPos d)

/-- The loop of R185 over `count` positions from `pos` on: a power of two is reserved with 0, any other position takes
the next data bit. By R184 the data bits last exactly; see log 10 for a shorter list. -/
def placeFrom : Nat → Nat → Bits → Bits
  | 0, _, _ => []
  | count + 1, pos, data =>
    if isPow2 pos then false :: placeFrom count (pos + 1) data
    else data.headD false :: placeFrom count (pos + 1) data.tail

/-- `place(data)` of R185, for `k = len(data)` data bits: the block of `n = k + r` positions. -/
def place (data : Bits) : Bits := placeFrom (data.length + redundancyFor data.length) 1 data

/-! ### Parity tree -/

/-- The XOR of the bits at those positions, from `pos` on, whose position number has a one in common with `p`. -/
def groupXorFrom (p : Nat) : Nat → Bits → Bit
  | _, [] => false
  | pos, b :: rest => Bool.xor (if pos &&& p ≠ 0 then b else false) (groupXorFrom p (pos + 1) rest)

/-- The XOR over all positions `pos` in `1..n` with `(pos AND p) != 0` of the current bit at `pos` (R186). -/
def groupXor (p : Nat) (blk : Bits) : Bit := groupXorFrom p 1 blk

/-- One round of the loop of R186: the parity of the group of `p = 2^i` stored at position `p`. -/
def storeParity (blk : Bits) (i : Nat) : Bits := blk.set (2 ^ i - 1) (groupXor (2 ^ i) blk)

/-- `parities(blk, r)` of R186: rounds `i = 0` to `r - 1` in order. -/
def parities (blk : Bits) (r : Nat) : Bits := (List.range r).foldl storeParity blk

/-! ### Blocks and streams -/

/-- `encode_block(data)` of R188. -/
def encodeBlock (data : Bits) : Bits := parities (place data) (redundancyFor data.length)

/-- `pad` of R190: `(k - (len mod k)) mod k`. -/
def padFor (len k : Nat) : Nat := (k - len % k) % k

/-- The loop of R190: `nb` blocks, each the encoding of the next `k` bits, in chunk order. -/
def encodeChunks (k : Nat) : Nat → Bits → Bits
  | 0, _ => []
  | nb + 1, X => encodeBlock (X.take k) ++ encodeChunks k nb (X.drop k)

/-- The triple `(frame, pad, r)` of R190. -/
structure StreamCode where
  frame : Bits
  pad : Nat
  r : Nat
  deriving DecidableEq, Repr

/-- `encode_stream(bits, k)` of R190. -/
def encodeStream (bits : Bits) (k : Nat) : StreamCode :=
  let pad := padFor bits.length k
  let padded := bits ++ zeros pad
  { frame := encodeChunks k (padded.length / k) padded, pad := pad, r := redundancyFor k }

/-- The pseudocode of `ENCHAM` (R193): the operand is checked before the capacity (R293). -/
def enchamBody (kop : Operand36) (s : State) : Except ErrKind State :=
  match blockSize kop with
  | none => .error .invalidBlockSize
  | some k =>
    let code := encodeStream s.M k
    if exceedsCap s.cap code.frame.length then .error .capacityExceeded
    else
      .ok { s with
        F := code.frame, algo := .hamming, k := BitVec.ofNat 7 k, r := BitVec.ofNat 3 code.r,
        padBits := BitVec.ofNat 6 code.pad, fsm := .encoded }

/-- `ENCHAM kop` (R193). -/
def execEncham (kop : Operand36) (s : State) : Host.Outcome State Fault Refusal :=
  .next (perform (.encham kop) (enchamBody kop) s)

end Sys2Proof.Machine
end

