-- ==== Sys2Proof/Machine/NoiseChannel.lean ====
section
/-! DEFINITION. The binary symmetric channel: the contract for every random source (R222, R223), the default generator
(R224, R225), `SEED` and `NOISE`. -/

namespace Sys2Proof.Machine

/-! ### The contract -/

/-- The flip decision of R222: the 32-bit sample, extended with zeros, is below the 36-bit threshold, unsigned. -/
def flips (u : Word32) (T : Operand36) : Bit := (u.setWidth 36).ult T

/-- `bsc_apply(frame, T, s)` of R222 over the source's `rng_next`: one sample for every frame bit, in stream order,
whatever `T` is. -/
def bscApply {σ : Type} (next : σ → σ × Word32) (T : Operand36) : Bits → σ → Bits × σ
  | [], s => ([], s)
  | b :: rest, s =>
    let (s1, u) := next s
    let (out, s2) := bscApply next T rest s1
    (Bool.xor b (flips u T) :: out, s2)

/-- The host's conversion of a probability `p = num / den` to the threshold (R223): `floor(p * 2^32 + 1/2)`. -/
def thresholdOf (num den : Nat) : Nat := (2 * (num * 0x100000000) + den) / (2 * den)

/-! ### The default generator -/

/-- `lfsr_step(s)` of R224. -/
def lfsrStep (s : Word32) : Word32 :=
  let shifted := s <<< 1
  if s.getLsbD 31 then shifted ^^^ 0x04C11DB7#32 else shifted

/-- `n` applications of `lfsr_step`. -/
def lfsrSteps : Nat → Word32 → Word32
  | 0, s => s
  | n + 1, s => lfsrSteps n (lfsrStep s)

/-- `lfsr_next(s)` of R225: 32 applications. -/
def lfsrNext (s : Word32) : Word32 := lfsrSteps 32 s

/-- The default `RandomSource` (R225): the sample is the whole new state. -/
def lfsrSource : RandomSource Word32 where
  rngReset := lfsrReset
  rngSeed := lfsrSeed
  rngNext := fun s => (lfsrNext s, lfsrNext s)

/-! ### The source the core has -/

/-- `rng_seed` of the instance the core has (R221). -/
def rngSeed (g : RngState) (seed : Word32) : RngState :=
  match g with
  | .lfsr _ => .lfsr (lfsrSource.rngSeed seed)
  | .external _ => .external (Config.externalSource.rngSeed seed)

/-- `rng_next` of the instance the core has (R221). -/
def rngNext (g : RngState) : RngState × Word32 :=
  match g with
  | .lfsr v => (.lfsr (lfsrSource.rngNext v).1, (lfsrSource.rngNext v).2)
  | .external n => (.external (Config.externalSource.rngNext n).1, (Config.externalSource.rngNext n).2)

/-! ### Commands -/

/-- The pseudocode of `SEED` (R227): every 32-bit seed is accepted. -/
def seedBody (seed : Word32) (s : State) : Except ErrKind State :=
  .ok { s with lfsr := rngSeed s.lfsr seed }

/-- `SEED seed` (R227). -/
def execSeed (seed : Word32) (s : State) : Host.Outcome State Fault Refusal :=
  .next (perform (.seed seed) (seedBody seed) s)

/-- The pseudocode of `NOISE` (R228). -/
def noiseBody (t : Operand36) (s : State) : Except ErrKind State :=
  match flipThreshold t with
  | none => .error .invalidProbability
  | some T =>
    let (out, g) := bscApply rngNext T s.F s.lfsr
    .ok { s with F := out, lfsr := g, fsm := .noised }

/-- `NOISE T` (R228). -/
def execNoise (t : Operand36) (s : State) : Host.Outcome State Fault Refusal :=
  .next (perform (.noise t) (noiseBody t) s)

end Sys2Proof.Machine
end

