-- ==== Sys2Proof/Machine/Dispatch.lean ====
section
/-! DEFINITION. One arm per command: "perform the pseudocode of c's rule" (R259). -/

namespace Sys2Proof.Machine

def exec (i : Instr) (s : State) : Host.Outcome State Fault Refusal :=
  match i with
  | .nop => Sys2Proof.Machine.execNop s
  | .clr => Sys2Proof.Machine.execClr s
  | .putb imm8 => Sys2Proof.Machine.execPutb imm8 s
  | .putsym imm8 => Sys2Proof.Machine.execPutsym imm8 s
  | .decb => Sys2Proof.Machine.execDecb s
  | .enccrc => Sys2Proof.Machine.execEnccrc s
  | .encham kop => Sys2Proof.Machine.execEncham kop s
  | .seed sd => Sys2Proof.Machine.execSeed sd s
  | .noise t => Sys2Proof.Machine.execNoise t s
  | .frame => Sys2Proof.Machine.execFrame s

end Sys2Proof.Machine
end

