-- ==== Sys2Proof/Machine/Step.lean ====
section
/-! DEFINITION. One step of the machine: one cycle of the command port (R259, R320). -/

namespace Sys2Proof.Machine

/-- Take the next cycle of the port; decode the word it gives and perform it (R259). -/
def step (s : State) : Host.Outcome State Fault Refusal :=
  match fetch s with
  | (none, t) => .next t
  | (some w, t) =>
    match decode w with
    | .ok i => exec i t
    | .error _ => .next (takeReserved t)

/-- The host presents the command word `w` (of which the table gives `nbits`) in the very next cycle. Log 1. -/
def State.withFetchWord (s : State) (nbits w : Nat) : State :=
  { s with port := { rst := false, cmdValid := true, cmd := tableWord nbits w } :: s.port }

end Sys2Proof.Machine
end

