-- ==== Sys2Proof/Machine/Assembler.lean ====
section
/-! DEFINITION. The host's side of the command port: the pseudo-commands of R103 and the assembly notation of R102.
Nothing here is read by a step; it says which command words a line of the notation stands for. What R102 leaves open
of the text form is log 11. -/

namespace Sys2Proof.Machine

/-! ### Pseudo-commands (R103) -/

/-- A decimal fraction `p` as written: its sign, and `num / den` its size, `den` a power of ten. -/
structure Fraction where
  negative : Bool
  num : Nat
  den : Nat
  deriving DecidableEq, Repr

/-- `PUTS "c1c2...cn"`. -/
def expandPuts (text : List Octet) : List Instr := text.map .putb

/-- `PUTBITS "s1s2...sn"`: the characters are passed as they are. -/
def expandPutbits (text : List Octet) : List Instr := text.map .putsym

/-- The threshold of `NOISEP p`: R223's conversion where `0 <= p <= 1`, the illegal `0xFFFFFFFFF` elsewhere. -/
def noisepThreshold (p : Fraction) : Operand36 :=
  if (p.negative && p.num != 0) || p.den < p.num then 0xFFFFFFFFF#36
  else BitVec.ofNat 36 (thresholdOf p.num p.den)

/-- `NOISEP p`. -/
def expandNoisep (p : Fraction) : List Instr := [.noise (noisepThreshold p)]

/-- `SENDCRC "text", p`. -/
def expandSendcrc (text : List Octet) (p : Fraction) : List Instr :=
  [.clr] ++ expandPuts text ++ [.enccrc] ++ expandNoisep p ++ [.frame]

/-- `SENDHAM "text", k, p`. -/
def expandSendham (text : List Octet) (k : Operand36) (p : Fraction) : List Instr :=
  [.clr] ++ expandPuts text ++ [.encham k] ++ expandNoisep p ++ [.frame]

/-- The host presents the commands one a cycle (R90, R323). -/
def presentAll (commands : List Instr) : List PortCycle :=
  commands.map fun i => { rst := false, cmdValid := true, cmd := encode i }

/-! ### The text of a line (R102) -/

/-- Blanks between the parts of a line. -/
def skipBlanks (cs : List Char) : List Char := cs.dropWhile fun c => c == ' ' || c == '\t'

/-- Nothing but blanks and an optional comment from `;` on is left of the line. -/
def lineEnds (cs : List Char) : Bool :=
  match skipBlanks cs with
  | [] => true
  | c :: _ => c == ';'

/-- The value of a hexadecimal digit, of either case. -/
def hexDigitValue (c : Char) : Option Nat :=
  if '0'.toNat ≤ c.toNat && c.toNat ≤ '9'.toNat then some (c.toNat - '0'.toNat)
  else if 'A'.toNat ≤ c.toNat && c.toNat ≤ 'F'.toNat then some (c.toNat - 'A'.toNat + 10)
  else if 'a'.toNat ≤ c.toNat && c.toNat ≤ 'f'.toNat then some (c.toNat - 'a'.toNat + 10)
  else none

/-- The digits below `base` at the head: how many there are, their value, and the rest. -/
def readDigits (base : Nat) : Nat → Nat → List Char → Nat × Nat × List Char
  | n, acc, [] => (n, acc, [])
  | n, acc, c :: cs =>
    match hexDigitValue c with
    | none => (n, acc, c :: cs)
    | some d => if d < base then readDigits base (n + 1) (base * acc + d) cs else (n, acc, c :: cs)

/-- At least one digit of the base. -/
def readNumberIn (base : Nat) (cs : List Char) : Option (Nat × List Char) :=
  match readDigits base 0 0 cs with
  | (0, _, _) => none
  | (_, v, rest) => some (v, rest)

/-- An unsigned number in decimal (`64`) or hexadecimal (`0x40`). -/
def readNumber (cs : List Char) : Option (Nat × List Char) :=
  match cs with
  | '0' :: 'x' :: rest => readNumberIn 16 rest
  | _ => readNumberIn 10 cs

/-- A number that fits an operand field of `n` bits. -/
def readOperand (n : Nat) (cs : List Char) : Option (BitVec n × List Char) :=
  match readNumber cs with
  | none => none
  | some (v, rest) => if v < 2 ^ n then some (BitVec.ofNat n v, rest) else none

/-- The code of an ASCII character. -/
def asciiCode (c : Char) : Option Octet := if c.toNat < 128 then some (BitVec.ofNat 8 c.toNat) else none

/-- The operand of `PUTB` and `PUTSYM`: a number, or one ASCII character in single quotes. -/
def readOctet (cs : List Char) : Option (Octet × List Char) :=
  match cs with
  | '\'' :: c :: '\'' :: rest => (asciiCode c).map fun b => (b, rest)
  | _ => readOperand 8 cs

/-- The codes of the characters up to the closing double quote. -/
def readTextBody : List Char → Option (List Octet × List Char)
  | [] => none
  | c :: cs =>
    if c == '\"' then some ([], cs)
    else
      match asciiCode c, readTextBody cs with
      | some b, some (bs, rest) => some (b :: bs, rest)
      | _, _ => none

/-- A text in double quotes. -/
def readText (cs : List Char) : Option (List Octet × List Char) :=
  match cs with
  | '\"' :: rest => readTextBody rest
  | _ => none

/-- A comma between the parts of a pseudo-command's operand. -/
def readComma (cs : List Char) : Option (List Char) :=
  match skipBlanks cs with
  | ',' :: rest => some (skipBlanks rest)
  | _ => none

/-- The size of a decimal fraction: digits, then optionally a point and digits. -/
def readUnsignedFraction (negative : Bool) (cs : List Char) : Option (Fraction × List Char) :=
  match readNumberIn 10 cs with
  | none => none
  | some (whole, '.' :: rest) =>
    match readDigits 10 0 whole rest with
    | (0, _, _) => none
    | (n, num, rest') => some ({ negative := negative, num := num, den := 10 ^ n }, rest')
  | some (whole, rest) => some ({ negative := negative, num := whole, den := 1 }, rest)

/-- A decimal fraction, with a sign if it is negative. -/
def readFraction (cs : List Char) : Option (Fraction × List Char) :=
  match cs with
  | '-' :: rest => readUnsignedFraction true rest
  | _ => readUnsignedFraction false cs

/-- The line is over, so it stands for these commands. -/
def endLine (commands : List Instr) (rest : List Char) : Option (List Instr) :=
  if lineEnds rest then some commands else none

/-- The operand and the end of a line whose mnemonic is `word`, `cs` the text after the mnemonic and its blanks. -/
def readAfterMnemonic (word cs : List Char) : Option (List Instr) :=
  if word = ['N', 'O', 'P'] then endLine [.nop] cs
  else if word = ['C', 'L', 'R'] then endLine [.clr] cs
  else if word = ['P', 'U', 'T', 'B'] then
    (readOctet cs).bind fun (b, rest) => endLine [.putb b] rest
  else if word = ['P', 'U', 'T', 'S', 'Y', 'M'] then
    (readOctet cs).bind fun (b, rest) => endLine [.putsym b] rest
  else if word = ['D', 'E', 'C', 'B'] then endLine [.decb] cs
  else if word = ['E', 'N', 'C', 'C', 'R', 'C'] then endLine [.enccrc] cs
  else if word = ['E', 'N', 'C', 'H', 'A', 'M'] then
    (readOperand 36 cs).bind fun (v, rest) => endLine [.encham v] rest
  else if word = ['S', 'E', 'E', 'D'] then
    (readOperand 32 cs).bind fun (v, rest) => endLine [.seed v] rest
  else if word = ['N', 'O', 'I', 'S', 'E'] then
    (readOperand 36 cs).bind fun (v, rest) => endLine [.noise v] rest
  else if word = ['F', 'R', 'A', 'M', 'E'] then endLine [.frame] cs
  else if word = ['P', 'U', 'T', 'S'] then
    (readText cs).bind fun (x, rest) => endLine (expandPuts x) rest
  else if word = ['P', 'U', 'T', 'B', 'I', 'T', 'S'] then
    (readText cs).bind fun (x, rest) => endLine (expandPutbits x) rest
  else if word = ['N', 'O', 'I', 'S', 'E', 'P'] then
    (readFraction cs).bind fun (p, rest) => endLine (expandNoisep p) rest
  else if word = ['S', 'E', 'N', 'D', 'C', 'R', 'C'] then
    (readText cs).bind fun (x, rest) => (readComma rest).bind fun rest =>
      (readFraction rest).bind fun (p, rest) => endLine (expandSendcrc x p) rest
  else if word = ['S', 'E', 'N', 'D', 'H', 'A', 'M'] then
    (readText cs).bind fun (x, rest) => (readComma rest).bind fun rest =>
      (readOperand 36 rest).bind fun (k, rest) => (readComma rest).bind fun rest =>
        (readFraction rest).bind fun (p, rest) => endLine (expandSendham x k p) rest
  else none

/-- The characters of a mnemonic: upper case letters (R102). -/
def isMnemonicChar (c : Char) : Bool := 'A'.toNat ≤ c.toNat && c.toNat ≤ 'Z'.toNat

/-- The commands of one line of the notation: the mnemonic, the operand if the format has one, an optional comment
(R102); `none` where the text is no line of the notation. A line without a mnemonic stands for no command. -/
def assembleLine (line : List Char) : Option (List Instr) :=
  let cs := skipBlanks line
  let word := cs.takeWhile isMnemonicChar
  let rest := cs.dropWhile isMnemonicChar
  if word = [] then endLine [] cs
  else if lineEnds rest || skipBlanks rest != rest then readAfterMnemonic word (skipBlanks rest)
  else none

/-- A program, one line after another, as command words: "the assembler encodes each line" (R102). -/
def assemble : List (List Char) → Option (List CmdWord)
  | [] => some []
  | line :: lines =>
    match assembleLine line, assemble lines with
    | some commands, some words => some (commands.map encode ++ words)
    | _, _ => none

/-! ### Writing a line -/

/-- The character of a hexadecimal digit, upper case (R100). -/
def hexChar (d : Nat) : Char := if d < 10 then Char.ofNat (48 + d) else Char.ofNat (55 + d)

/-- `n` hexadecimal digits of a number, most significant first. -/
def hexText (n v : Nat) : List Char := (List.range n).map fun j => hexChar (v / 16 ^ (n - 1 - j) % 16)

/-- A line of the notation for a command, its operand in hexadecimal (R102). -/
def renderLine (i : Instr) : List Char :=
  match i with
  | .nop => ['N', 'O', 'P']
  | .clr => ['C', 'L', 'R']
  | .putb imm8 => ['P', 'U', 'T', 'B', ' ', '0', 'x'] ++ hexText 2 imm8.toNat
  | .putsym imm8 => ['P', 'U', 'T', 'S', 'Y', 'M', ' ', '0', 'x'] ++ hexText 2 imm8.toNat
  | .decb => ['D', 'E', 'C', 'B']
  | .enccrc => ['E', 'N', 'C', 'C', 'R', 'C']
  | .encham kop => ['E', 'N', 'C', 'H', 'A', 'M', ' ', '0', 'x'] ++ hexText 9 kop.toNat
  | .seed sd => ['S', 'E', 'E', 'D', ' ', '0', 'x'] ++ hexText 8 sd.toNat
  | .noise t => ['N', 'O', 'I', 'S', 'E', ' ', '0', 'x'] ++ hexText 9 t.toNat
  | .frame => ['F', 'R', 'A', 'M', 'E']

end Sys2Proof.Machine
end

