-- ==== Sys2Proof/Safety.lean ====
section
/-! DEFINITION. What a run of the core amounts to (R258), the invariants of R37 and R70, and the vocabulary the
statements use. -/

namespace Sys2Proof.Machine

/-- A run has ended well (R258). -/
def endedWell (s : State) : Prop := s.fsm = .framed

/-- A run has ended badly (R258). -/
def endedBadly (s : State) : Prop := s.fsm = .fault

/-- A run is unfinished: "nothing may be concluded about a record" (R258). -/
def unfinished (s : State) : Prop := ¬ endedWell s ∧ ¬ endedBadly s

/-- The states in which `F` holds a frame (R37 (c)). -/
def hasFrame (f : Fsm) : Bool := f == .encoded || f == .noised || f == .framed

/-- The states in which a message may still be loaded. -/
def loading (f : Fsm) : Bool := f == .idle || f == .messageLoaded

/-- `n` bits fit a buffer (R70). -/
abbrev fits (cap : Option Nat) (n : Nat) : Prop := ∀ c, cap = some c → n ≤ c

/-- The invariants of R37, with the values R27 and R29 to R31 give the registers before an encoder has run, and the
capacity bound of R70. Field (g) is in the form: the octets in `B` are the first bits of `M`, from which
`8 * len(B) <= len(M)`. -/
structure Inv (s : State) : Prop where
  /-- R37 (a). -/
  errIffFault : s.err = .noError ↔ s.fsm ≠ .fault
  /-- R37 (b), `Idle`. -/
  idleEmpty : s.fsm = .idle → s.M = [] ∧ s.msgLen = 0 ∧ s.F = [] ∧ s.B = [] ∧ s.algo = .none
  /-- R37 (b), `MessageLoaded`. -/
  loadedMessage : s.fsm = .messageLoaded → 1 ≤ s.M.length ∧ s.F = [] ∧ s.algo = .none
  /-- R27, R29, R30, R31: before an encoder has run. -/
  noEncoderYet : loading s.fsm = true → s.crc = 0xFFFFFFFF#32 ∧ s.k = 0 ∧ s.r = 0 ∧ s.padBits = 0
  /-- R37 (c). -/
  frameThere : hasFrame s.fsm = true →
    (s.algo = .crc32 ∨ s.algo = .hamming) ∧ 1 ≤ s.M.length ∧ 1 ≤ s.F.length
  /-- R37 (d). -/
  crcFrame : hasFrame s.fsm = true → s.algo = .crc32 →
    s.crc = crc32Compute s.M ∧ s.F.length = s.M.length + 32 ∧ s.k = 0 ∧ s.r = 0 ∧ s.padBits = 0 ∧
      (s.fsm = .encoded → s.F = s.M ++ toBits s.crc)
  /-- R37 (e), with R193's "`crc_value` stays `0xFFFFFFFF`". -/
  hammingFrame : hasFrame s.fsm = true → s.algo = .hamming →
    1 ≤ s.k.toNat ∧ s.k.toNat ≤ 64 ∧ s.r.toNat = redundancyFor s.k.toNat ∧
      s.padBits.toNat = (s.k.toNat - s.M.length % s.k.toNat) % s.k.toNat ∧
      s.F.length = ((s.M.length + s.padBits.toNat) / s.k.toNat) * (s.k.toNat + s.r.toNat) ∧
      s.crc = 0xFFFFFFFF#32 ∧
      (s.fsm = .encoded → s.F = (encodeStream s.M s.k.toNat).frame)
  /-- R37 (f). -/
  lfsrNonzero : ∀ v, s.lfsr = .lfsr v → v ≠ 0x00000000#32
  /-- R37 (g), first half. -/
  octetsOfMessage : ∃ rest, s.M = bytesToBits s.B ++ rest
  /-- R37 (g), second half. -/
  msgLenBound : s.msgLen ≤ s.M.length / 8
  /-- R70. -/
  withinCap : Memory.wf s = true

/-- The samples of a source from a state on: sample `i` is drawn by the `i`-th call of `rng_next` (R222). -/
def nthSample {σ : Type} (next : σ → σ × Word32) : Nat → σ → Word32
  | 0, s => (next s).2
  | n + 1, s => nthSample next n (next s).1

/-- The state of a source after `n` samples (R222). -/
def afterSamples {σ : Type} (next : σ → σ × Word32) : Nat → σ → σ
  | 0, s => s
  | n + 1, s => afterSamples next n (next s).1

/-- Both states have the same instance of the parameter `RandomSource` (R221). -/
def sameSource (g h : RngState) : Prop :=
  match g, h with
  | .lfsr _, .lfsr _ => True
  | .external _, .external _ => True
  | _, _ => False

/-- The columns of the table of R252, state by state: the commands whose entry is `Seq`. -/
def seqEntry (f : Fsm) (i : Instr) : Bool :=
  match f with
  | .idle =>
    match i with
    | .nop => false | .clr => false | .putb _ => false | .putsym _ => false | .decb => false
    | .enccrc => false | .encham _ => false | .seed _ => false | .noise _ => true | .frame => true
  | .messageLoaded =>
    match i with
    | .nop => false | .clr => false | .putb _ => false | .putsym _ => false | .decb => false
    | .enccrc => false | .encham _ => false | .seed _ => false | .noise _ => true | .frame => true
  | .encoded =>
    match i with
    | .nop => false | .clr => false | .putb _ => true | .putsym _ => true | .decb => true
    | .enccrc => true | .encham _ => true | .seed _ => false | .noise _ => false | .frame => true
  | .noised =>
    match i with
    | .nop => false | .clr => false | .putb _ => true | .putsym _ => true | .decb => true
    | .enccrc => true | .encham _ => true | .seed _ => true | .noise _ => true | .frame => false
  | .framed =>
    match i with
    | .nop => false | .clr => false | .putb _ => true | .putsym _ => true | .decb => true
    | .enccrc => true | .encham _ => true | .seed _ => true | .noise _ => true | .frame => true
  | .fault => false

/-- The columns of the table of R252, state by state: the commands whose entry is `Empty`. -/
def emptyEntry (f : Fsm) (i : Instr) : Bool :=
  match f with
  | .idle =>
    match i with
    | .nop => false | .clr => false | .putb _ => false | .putsym _ => false | .decb => false
    | .enccrc => true | .encham _ => true | .seed _ => false | .noise _ => false | .frame => false
  | .messageLoaded => false
  | .encoded => false
  | .noised => false
  | .framed => false
  | .fault => false

/-- The rows of R251 but the last: where the command `i` takes `fsm` from `f` when it succeeds. -/
def fsmRow (f : Fsm) (i : Instr) : Option Fsm :=
  match i with
  | .clr => some .idle
  | .putb _ => if loading f then some .messageLoaded else none
  | .putsym _ => if loading f then some .messageLoaded else none
  | .enccrc => if f = .messageLoaded then some .encoded else none
  | .encham _ => if f = .messageLoaded then some .encoded else none
  | .noise _ => if f = .encoded then some .noised else none
  | .frame => if f = .noised then some .framed else none
  | .nop => none
  | .decb => none
  | .seed _ => none

/-- The pseudocode of each command's rule, as one function. -/
def commandBody : Instr → State → Except ErrKind State
  | .nop => .ok
  | .clr => fun t => .ok (clearRun t)
  | .putb imm8 => putbBody imm8
  | .putsym imm8 => putsymBody imm8
  | .decb => decbBody
  | .enccrc => enccrcBody
  | .encham kop => enchamBody kop
  | .seed sd => seedBody sd
  | .noise t => noiseBody t
  | .frame => frameBody

/-- The operand or input-length condition of priority 4 of R293, with its kind (R281 to R284). -/
def operandErrors (i : Instr) (s : State) : List ErrKind :=
  match i with
  | .putsym imm8 => if imm8.toNat ≠ 0x30 ∧ imm8.toNat ≠ 0x31 then [.invalidSymbol] else []
  | .encham kop => if kop.toNat = 0 ∨ 64 < kop.toNat then [.invalidBlockSize] else []
  | .noise t => if 0x100000000 < t.toNat then [.invalidProbability] else []
  | .decb => if s.M.length % 8 ≠ 0 then [.malformedInput] else []
  | .nop => []
  | .clr => []
  | .putb _ => []
  | .enccrc => []
  | .seed _ => []
  | .frame => []

/-- The length the buffer a command writes would have (R288), for the commands that can exceed `CAP`. -/
def writtenLength (i : Instr) (s : State) : Option Nat :=
  match i with
  | .putb _ => some (s.M.length + 8)
  | .putsym _ => some (s.M.length + 1)
  | .enccrc => some (s.M.length + 32)
  | .encham kop =>
    some (((s.M.length + padFor s.M.length kop.toNat) / kop.toNat) * (kop.toNat + redundancyFor kop.toNat))
  | .nop => none
  | .clr => none
  | .decb => none
  | .seed _ => none
  | .noise _ => none
  | .frame => none

/-- The capacity condition of priority 5 of R293 (R288). -/
def capacityErrors (i : Instr) (s : State) : List ErrKind :=
  match s.cap, writtenLength i s with
  | some c, some n => if c < n then [.capacityExceeded] else []
  | _, _ => []

/-- The conditions of R293 that hold when a word is presented outside `Fault`, in the rule's order of priority: the
first in the list wins. -/
def heldErrors (w : CmdWord) (s : State) : List ErrKind :=
  match decode w with
  | .error _ => [.illegalCommand]
  | .ok i =>
    (if emptyEntry s.fsm i then [.emptyMessage] else []) ++ (if seqEntry s.fsm i then [.sequenceError] else []) ++
      operandErrors i s ++ capacityErrors i s

end Sys2Proof.Machine
end

