-- ==== Sys2Proof/Certificates/Slice0/Obligations.lean ====
section
/-! DEFINITION. The statements for the provers. Each says in its docstring what it states and names the rule or the
section of spec/ it rests on. -/

open Sys2Proof Sys2Proof.Machine

/-- For every command c, with every operand at every value its field admits, decode (encode c) = c; and for every 40-bit
word w that decodes to a command c, encode c = w. (spec/30_encoding.md, rule R95, its last paragraph) -/
def Obligations.DecodeEncodeRoundTrip : Prop :=
  (∀ i : Instr, decode (encode i) = .ok i) ∧
  (∀ (w : CmdWord) (i : Instr), decode w = .ok i → encode i = w)

/-- With op = cmd[39:36] and v = cmd[35:0] read as numbers: op 0, 1, 4, 5, 9 with v = 0 decode to NOP, CLR, DECB, ENCCRC,
FRAME; op 2 and 3 with v < 2^8 to PUTB and PUTSYM of v; op 6 to ENCHAM v; op 7 with v < 2^32 to SEED v; op 8 to NOISE
v. (spec/30_encoding.md, rules R91, R92, R93 and the decode table of R95) -/
def Obligations.DecodeFollowsOpcodeMap : Prop :=
  ∀ w : CmdWord,
    let op := w.toNat / 0x1000000000
    let v := w.toNat % 0x1000000000
    (op = 0 → v = 0 → decode w = .ok .nop) ∧
    (op = 1 → v = 0 → decode w = .ok .clr) ∧
    (op = 2 → v < 0x100 → decode w = .ok (.putb (BitVec.ofNat 8 v))) ∧
    (op = 3 → v < 0x100 → decode w = .ok (.putsym (BitVec.ofNat 8 v))) ∧
    (op = 4 → v = 0 → decode w = .ok .decb) ∧
    (op = 5 → v = 0 → decode w = .ok .enccrc) ∧
    (op = 6 → decode w = .ok (.encham (BitVec.ofNat 36 v))) ∧
    (op = 7 → v < 0x100000000 → decode w = .ok (.seed (BitVec.ofNat 32 v))) ∧
    (op = 8 → decode w = .ok (.noise (BitVec.ofNat 36 v))) ∧
    (op = 9 → v = 0 → decode w = .ok .frame)

/-- A word is refused by the decoder exactly when its opcode is 0xA to 0xF or a must-be-zero bit of its format is 1;
presented in any state but Fault it raises IllegalCommand and does nothing else; the all-zero word is NOP and the all-
ones word is reserved. (R94; R287) -/
def Obligations.ReservedWordsRaiseIllegalCommand : Prop :=
  (∀ w : CmdWord,
    let op := w.toNat / 0x1000000000
    let v := w.toNat % 0x1000000000
    (∃ e, decode w = .error e) ↔
      10 ≤ op ∨ ((op = 0 ∨ op = 1 ∨ op = 4 ∨ op = 5 ∨ op = 9) ∧ v ≠ 0) ∨
        ((op = 2 ∨ op = 3) ∧ 0x100 ≤ v) ∨ (op = 7 ∧ 0x100000000 ≤ v)) ∧
  (∀ (s : State) (c : PortCycle) (rest : List PortCycle), s.port = c :: rest → c.rst = false → c.cmdValid = true →
    (∃ e, decode c.cmd = .error e) → s.fsm ≠ .fault →
    step s = .next { s with port := rest, err := .illegalCommand, fsm := .fault }) ∧
  decode 0x0000000000#40 = .ok .nop ∧ (∃ e, decode 0xFFFFFFFFFF#40 = .error e)

/-- For every word that decodes to a command, the rows of the opcode table whose mask and match it fits are exactly the
one row with that command's mnemonic; a reserved word fits none. (spec/30_encoding.md, rule R95, its last sentence;
spec/opcode_table.json) -/
def Obligations.OpcodeRowsAgreeWithDecode : Prop :=
  ∀ w : CmdWord,
    (∀ i, decode w = .ok i → (opcodeTable.filter fun row => row.fits w).map OpcodeRow.mnemonic = [mnemonicOf i]) ∧
    (∀ e, decode w = .error e → opcodeTable.filter (fun row => row.fits w) = [])

/-- The words 0x1000000000, 0x2000000048, 0x3000000031, 0x4000000000, 0x5000000000, 0x6000000004, 0x70C0FFEE01,
0x8100000000, 0x9000000000 decode to CLR, PUTB 0x48, PUTSYM 0x31, DECB, ENCCRC, ENCHAM 4, SEED 0xC0FFEE01, NOISE 2^32,
FRAME; 0x20000001FF and 0x7100000000 are reserved. (spec/95_test_vectors.md, part B5) -/
def Obligations.WrittenWordsDecode : Prop :=
  decode 0x1000000000#40 = .ok .clr ∧ decode 0x2000000048#40 = .ok (.putb 0x48#8) ∧
  decode 0x3000000031#40 = .ok (.putsym 0x31#8) ∧ decode 0x4000000000#40 = .ok .decb ∧
  decode 0x5000000000#40 = .ok .enccrc ∧ decode 0x6000000004#40 = .ok (.encham 4#36) ∧
  decode 0x70C0FFEE01#40 = .ok (.seed 0xC0FFEE01#32) ∧ decode 0x8100000000#40 = .ok (.noise 0x100000000#36) ∧
  decode 0x9000000000#40 = .ok .frame ∧
  decode 0x20000001FF#40 = .error (.mustBeZero 2) ∧ decode 0x7100000000#40 = .error (.mustBeZero 7)

/-- When the next port cycle has rst = 0 and cmd_valid = 1 and its word decodes to the command i, the step is exec of i on
the state from which that cycle has been taken off the port; nothing else is added around it.
(spec/44_framebuilder_control.md, rule R259; notes/assumptions/1.md (the port as a list of cycles is the model's)) -/
def Obligations.StepRunsDecodedCommand : Prop :=
  ∀ (s : State) (c : PortCycle) (rest : List PortCycle) (i : Instr), s.port = c :: rest → c.rst = false →
    c.cmdValid = true → decode c.cmd = .ok i → step s = exec i { s with port := rest }

/-- With nothing presented the step leaves the state as it is; a cycle with rst = 0 and cmd_valid = 0 is taken off the
port and changes nothing else, whatever word is on the pins. (spec/44_framebuilder_control.md, rule R259, its last
sentence; notes/assumptions/1.md (the port as a list of cycles is the model's)) -/
def Obligations.StepWithoutCommandChangesNothing : Prop :=
  (∀ s : State, s.port = [] → step s = .next s) ∧
  (∀ (s : State) (c : PortCycle) (rest : List PortCycle), s.port = c :: rest → c.rst = false → c.cmdValid = false →
    step s = .next { s with port := rest })

/-- For every state the step answers a next state; so does every command in every state: no fault and no refusal stops the
machine. (spec/44_framebuilder_control.md, rule R259: the function is total) -/
def Obligations.StepAlwaysGivesNextState : Prop :=
  (∀ s : State, ∃ t, step s = .next t) ∧ (∀ (i : Instr) (s : State), ∃ t, exec i s = .next t)

/-- Whatever the state and whatever word is presented, a cycle with rst = 1 gives every register and buffer its reset
value, lfsr included (0xFFFFFFFF in the default instance, the source's rng_reset otherwise); reset differs from CLR
only in lfsr. That the parameter CAP and the host's later cycles stay over a reset is the model's reading (log 6).
(spec/70_reset_and_hazards.md, rule R320; notes/assumptions/6.md (CAP and the host's later cycles stay: the model's
reading)) -/
def Obligations.ResetCyclePutsResetValues : Prop :=
  ∀ (s : State) (c : PortCycle) (rest : List PortCycle), s.port = c :: rest → c.rst = true →
    ∃ t, step s = .next t ∧ t.fsm = .idle ∧ t.err = .noError ∧ t.M = [] ∧ t.msgLen = 0 ∧ t.F = [] ∧ t.B = [] ∧
      t.crc = 0xFFFFFFFF#32 ∧ t.algo = .none ∧ t.k = 0 ∧ t.r = 0 ∧ t.padBits = 0 ∧
      (∀ v, s.lfsr = .lfsr v → t.lfsr = .lfsr 0xFFFFFFFF#32) ∧
      (∀ n, s.lfsr = .external n → t.lfsr = .external Config.externalSource.rngReset) ∧
      t.cap = s.cap ∧ t.port = rest ∧
      exec .clr { s with port := rest } = .next { t with lfsr := s.lfsr }

/-- After reset: Idle, no error, empty buffers, msg_len 0, crc 0xFFFFFFFF, algo NONE, k, r, pad_bits 0, lfsr 0xFFFFFFFF,
and the outputs fault 0, rec_valid 0, lengths 0, crc_value 0xFFFFFFFF; with an open random source a reset gives lfsr
its rng_reset. After CLR in any state: the same, with lfsr unchanged. (R35) -/
def Obligations.ResetAndClearValues : Prop :=
  (State.reset.fsm = .idle ∧ State.reset.err = .noError ∧ State.reset.M = [] ∧ State.reset.msgLen = 0 ∧
    State.reset.F = [] ∧ State.reset.B = [] ∧ State.reset.crc = 0xFFFFFFFF#32 ∧ State.reset.algo = .none ∧
    State.reset.k = 0 ∧ State.reset.r = 0 ∧ State.reset.padBits = 0 ∧ State.reset.lfsr = .lfsr 0xFFFFFFFF#32) ∧
  (∀ s : State, ∃ t, exec .clr s = .next t ∧ t.fsm = .idle ∧ t.err = .noError ∧ t.M = [] ∧ t.msgLen = 0 ∧ t.F = [] ∧
    t.B = [] ∧ t.crc = 0xFFFFFFFF#32 ∧ t.algo = .none ∧ t.k = 0 ∧ t.r = 0 ∧ t.padBits = 0 ∧ t.lfsr = s.lfsr) ∧
  (∀ (s : State) (n : Nat), s.lfsr = .external n → (hardReset s).lfsr = .external Config.externalSource.rngReset) ∧
  (∀ fAddr bAddr, let o := outputs State.reset fAddr bAddr
    o.fault = false ∧ o.recValid = false ∧ o.mlen = 0 ∧ o.flen = 0 ∧ o.blen = 0 ∧ o.crcValue = 0xFFFFFFFF#32)

/-- For every state and every word the decoder reads a command from, the step after placing the word on the port is exec
of that command on the state before. (spec/30_encoding.md, rule R90; notes/assumptions/1.md (how a program comes to
run is the model's)) -/
def Obligations.PlacedWordRunsNext : Prop :=
  ∀ (s : State) (w : Nat) (i : Instr), decodeTableWord 40 w = some i → step (s.withFetchWord 40 w) = exec i s

/-- In every state, Fault included, NOP answers the state itself; its word is 0x0000000000, and a word with opcode 0 and a
non-zero operand field is reserved. (R253) -/
def Obligations.NopChangesNothing : Prop :=
  (encode .nop).toNat = 0x0000000000 ∧
  (∀ w : CmdWord, w.toNat / 0x1000000000 = 0 → w.toNat ≠ 0 → ∃ e, decode w = .error e) ∧
  (∀ s : State, exec .nop s = .next s)

/-- In every state, Fault and Framed included, CLR answers the state with M, F, B empty, msg_len 0, crc 0xFFFFFFFF, algo
NONE, k, r, pad_bits 0, err 0, fsm Idle, and everything else, lfsr among it, unchanged; in Idle, where Inv holds, that
is no change at all; no other command leaves Fault, and none leaves Framed but by raising an error (log 13 says how
the rule's sentence on Framed is read); its word is 0x1000000000. (spec/44_framebuilder_control.md, rule R254, its
sentence on Framed read with the last row of rule R251; notes/assumptions/13.md) -/
def Obligations.ClrStartsNewRun : Prop :=
  (encode .clr).toNat = 0x1000000000 ∧
  (∀ s : State, exec .clr s = .next { s with
    M := [], F := [], B := [], msgLen := 0, crc := 0xFFFFFFFF#32, algo := .none, k := 0, r := 0, padBits := 0,
    err := .noError, fsm := .idle }) ∧
  (∀ s : State, Inv s → s.fsm = .idle → exec .clr s = .next s) ∧
  (∀ (i : Instr) (s t : State), s.fsm = .fault ∨ s.fsm = .framed → exec i s = .next t → t.fsm ≠ s.fsm →
    i = .clr ∨ (s.fsm = .framed ∧ t.fsm = .fault))

/-- In Idle and MessageLoaded, where 8 more bits fit, PUTB appends the octet's bits most significant first, adds one to
msg_len, goes to MessageLoaded and changes nothing else; where they do not fit it raises CapacityExceeded; in Encoded,
Noised, Framed it raises SequenceError; in Fault it is ignored. Its word is 0x2000000000 + imm8. Presenting PUTB of
each octet of x from Idle with M empty and msg_len 0, where CAP allows, gives M = bytes_to_bits(x) and msg_len =
len(x). (R133) -/
def Obligations.PutbAppendsOctet : Prop :=
  (∀ (x : List Octet) (s : State) (rest : List PortCycle), s.fsm = .idle → s.M = [] → s.msgLen = 0 →
    fits s.cap (8 * x.length) → s.port = presentAll (x.map .putb) ++ rest →
    Sys2Proof.core.run x.length s = .next { s with
      M := bytesToBits x, msgLen := x.length, fsm := if x = [] then .idle else .messageLoaded, port := rest }) ∧
  ∀ (imm8 : Octet) (s : State),
    (encode (.putb imm8)).toNat = 0x2000000000 + imm8.toNat ∧
    (s.fsm = .idle ∨ s.fsm = .messageLoaded → fits s.cap (s.M.length + 8) →
      exec (.putb imm8) s = .next { s with
        M := s.M ++ [imm8.getLsbD 7, imm8.getLsbD 6, imm8.getLsbD 5, imm8.getLsbD 4, imm8.getLsbD 3, imm8.getLsbD 2,
                     imm8.getLsbD 1, imm8.getLsbD 0],
        msgLen := s.msgLen + 1, fsm := .messageLoaded }) ∧
    (s.fsm = .idle ∨ s.fsm = .messageLoaded → ¬ fits s.cap (s.M.length + 8) →
      exec (.putb imm8) s = .next { s with err := .capacityExceeded, fsm := .fault }) ∧
    (s.fsm = .encoded ∨ s.fsm = .noised ∨ s.fsm = .framed →
      exec (.putb imm8) s = .next { s with err := .sequenceError, fsm := .fault }) ∧
    (s.fsm = .fault → exec (.putb imm8) s = .next s)

/-- In Idle and MessageLoaded, with room for one bit, code 0x30 appends bit 0 and code 0x31 bit 1, going to MessageLoaded,
msg_len and all else unchanged; any other code raises InvalidSymbol whether or not there is room; no room raises
CapacityExceeded; later states SequenceError; Fault ignores. Its word is 0x3000000000 + imm8. No other command takes
len(M) from a multiple of 8 to a number that is none. (R134) -/
def Obligations.PutsymAppendsSymbol : Prop :=
  (∀ (i : Instr) (s t : State), exec i s = .next t → s.M.length % 8 = 0 → t.M.length % 8 ≠ 0 →
    ∃ b, i = .putsym b) ∧
  ∀ (imm8 : Octet) (s : State),
    (encode (.putsym imm8)).toNat = 0x3000000000 + imm8.toNat ∧
    (s.fsm = .idle ∨ s.fsm = .messageLoaded → fits s.cap (s.M.length + 1) → imm8.toNat = 0x30 →
      exec (.putsym imm8) s = .next { s with M := s.M ++ [false], fsm := .messageLoaded }) ∧
    (s.fsm = .idle ∨ s.fsm = .messageLoaded → fits s.cap (s.M.length + 1) → imm8.toNat = 0x31 →
      exec (.putsym imm8) s = .next { s with M := s.M ++ [true], fsm := .messageLoaded }) ∧
    (s.fsm = .idle ∨ s.fsm = .messageLoaded → imm8.toNat ≠ 0x30 → imm8.toNat ≠ 0x31 →
      exec (.putsym imm8) s = .next { s with err := .invalidSymbol, fsm := .fault }) ∧
    (s.fsm = .idle ∨ s.fsm = .messageLoaded → ¬ fits s.cap (s.M.length + 1) →
      imm8.toNat = 0x30 ∨ imm8.toNat = 0x31 →
      exec (.putsym imm8) s = .next { s with err := .capacityExceeded, fsm := .fault }) ∧
    (s.fsm = .encoded ∨ s.fsm = .noised ∨ s.fsm = .framed →
      exec (.putsym imm8) s = .next { s with err := .sequenceError, fsm := .fault }) ∧
    (s.fsm = .fault → exec (.putsym imm8) s = .next s)

/-- In Idle and MessageLoaded, with len(M) a multiple of 8, DECB makes B the len(M)/8 octets whose bits are M and changes
nothing else; with another length it raises MalformedInput; later states SequenceError; Fault ignores. Its word is
0x4000000000. Presenting PUTB of each octet of x from Idle with M empty, where CAP allows, and then DECB gives B = x
(x empty included). (R135) -/
def Obligations.DecbFillsOctetBuffer : Prop :=
  (encode .decb).toNat = 0x4000000000 ∧
  (∀ (x : List Octet) (s : State) (rest : List PortCycle), s.fsm = .idle → s.M = [] → fits s.cap (8 * x.length) →
    s.port = presentAll (x.map .putb ++ [.decb]) ++ rest →
    Sys2Proof.core.run (x.length + 1) s = .next { s with
      M := bytesToBits x, msgLen := s.msgLen + x.length, B := x,
      fsm := if x = [] then .idle else .messageLoaded, port := rest }) ∧
  ∀ s : State,
    (s.fsm = .idle ∨ s.fsm = .messageLoaded → s.M.length % 8 = 0 →
      ∃ octets : List Octet, octets.length = s.M.length / 8 ∧ bytesToBits octets = s.M ∧
        exec .decb s = .next { s with B := octets }) ∧
    (s.fsm = .idle ∨ s.fsm = .messageLoaded → s.M.length % 8 ≠ 0 →
      exec .decb s = .next { s with err := .malformedInput, fsm := .fault }) ∧
    (s.fsm = .encoded ∨ s.fsm = .noised ∨ s.fsm = .framed →
      exec .decb s = .next { s with err := .sequenceError, fsm := .fault }) ∧
    (s.fsm = .fault → exec .decb s = .next s)

/-- In MessageLoaded, where len(M) + 32 bits fit, ENCCRC puts the CRC of M in crc, M with that CRC's 32 bits in F, algo
CRC32, k, r, pad_bits 0, fsm Encoded, and changes nothing else; where they do not fit CapacityExceeded; in Idle
EmptyMessage; later states SequenceError; Fault ignores. Its word is 0x5000000000. (R159) -/
def Obligations.EnccrcMakesCrcFrame : Prop :=
  (encode .enccrc).toNat = 0x5000000000 ∧
  ∀ s : State,
    (s.fsm = .messageLoaded → fits s.cap (s.M.length + 32) →
      exec .enccrc s = .next { s with
        crc := crc32Compute s.M, F := s.M ++ toBits (crc32Compute s.M), algo := .crc32, k := 0, r := 0, padBits := 0,
        fsm := .encoded }) ∧
    (s.fsm = .messageLoaded → ¬ fits s.cap (s.M.length + 32) →
      exec .enccrc s = .next { s with err := .capacityExceeded, fsm := .fault }) ∧
    (s.fsm = .idle → exec .enccrc s = .next { s with err := .emptyMessage, fsm := .fault }) ∧
    (s.fsm = .encoded ∨ s.fsm = .noised ∨ s.fsm = .framed →
      exec .enccrc s = .next { s with err := .sequenceError, fsm := .fault }) ∧
    (s.fsm = .fault → exec .enccrc s = .next s)

/-- In MessageLoaded with 1 <= kop <= 64 and room for the ((len(M) + pad) / kop) * (kop + r) bits, ENCHAM puts the encoded
stream in F, algo HAMMING, kop in k, r and pad in their registers without loss, fsm Encoded, and changes nothing else
(crc, in every state that meets Inv, is still 0xFFFFFFFF); kop 0 or above 64 raises InvalidBlockSize whether or not
there is room; no room CapacityExceeded; Idle EmptyMessage for every kop; later states SequenceError; Fault ignores.
Its word is 0x6000000000 + kop. (R193; R283) -/
def Obligations.EnchamMakesHammingFrame : Prop :=
  ∀ (kop : Operand36) (s : State),
    let len := s.M.length
    let pad := (kop.toNat - len % kop.toNat) % kop.toNat
    let size := ((len + pad) / kop.toNat) * (kop.toNat + redundancyFor kop.toNat)
    (encode (.encham kop)).toNat = 0x6000000000 + kop.toNat ∧
    (s.fsm = .messageLoaded → 1 ≤ kop.toNat → kop.toNat ≤ 64 → fits s.cap size →
      ∃ t, exec (.encham kop) s = .next t ∧ t.k.toNat = kop.toNat ∧ t.r.toNat = redundancyFor kop.toNat ∧
        t.padBits.toNat = pad ∧ t.F.length = size ∧
        t = { s with
          F := (encodeStream s.M kop.toNat).frame, algo := .hamming, k := t.k, r := t.r, padBits := t.padBits,
          fsm := .encoded } ∧
        (Inv s → t.crc = 0xFFFFFFFF#32)) ∧
    (s.fsm = .messageLoaded → kop.toNat = 0 ∨ 65 ≤ kop.toNat →
      exec (.encham kop) s = .next { s with err := .invalidBlockSize, fsm := .fault }) ∧
    (s.fsm = .messageLoaded → 1 ≤ kop.toNat → kop.toNat ≤ 64 → ¬ fits s.cap size →
      exec (.encham kop) s = .next { s with err := .capacityExceeded, fsm := .fault }) ∧
    (s.fsm = .idle → exec (.encham kop) s = .next { s with err := .emptyMessage, fsm := .fault }) ∧
    (s.fsm = .encoded ∨ s.fsm = .noised ∨ s.fsm = .framed →
      exec (.encham kop) s = .next { s with err := .sequenceError, fsm := .fault }) ∧
    (s.fsm = .fault → exec (.encham kop) s = .next s)

/-- In Idle, MessageLoaded and Encoded, SEED loads the generator and changes nothing else: in the default instance lfsr
becomes 0xFFFFFFFF for a zero seed and the seed otherwise, in an open source its rng_seed of the seed; in Noised and
Framed SequenceError; Fault ignores. Its word is 0x7000000000 + seed. (R227) -/
def Obligations.SeedLoadsGenerator : Prop :=
  ∀ (sd : Word32) (s : State),
    (encode (.seed sd)).toNat = 0x7000000000 + sd.toNat ∧
    (s.fsm = .idle ∨ s.fsm = .messageLoaded ∨ s.fsm = .encoded →
      (∀ v, s.lfsr = .lfsr v →
        exec (.seed sd) s = .next { s with lfsr := .lfsr (if sd.toNat = 0 then 0xFFFFFFFF#32 else sd) }) ∧
      (∀ n, s.lfsr = .external n →
        exec (.seed sd) s = .next { s with lfsr := .external (Config.externalSource.rngSeed sd) })) ∧
    (s.fsm = .noised ∨ s.fsm = .framed →
      exec (.seed sd) s = .next { s with err := .sequenceError, fsm := .fault }) ∧
    (s.fsm = .fault → exec (.seed sd) s = .next s)

/-- In Encoded with T <= 2^32, NOISE replaces F by the channel's output, lfsr by the generator's state after it, fsm by
Noised, and changes nothing else; T above 2^32 raises InvalidProbability; in Idle, MessageLoaded, Noised, Framed
SequenceError for every T; Fault ignores. Its word is 0x8000000000 + T. (R228; R284) -/
def Obligations.NoisePassesFrameThroughChannel : Prop :=
  ∀ (T : Operand36) (s : State),
    (encode (.noise T)).toNat = 0x8000000000 + T.toNat ∧
    (s.fsm = .encoded → T.toNat ≤ 0x100000000 →
      exec (.noise T) s = .next { s with
        F := (bscApply rngNext T s.F s.lfsr).1, lfsr := (bscApply rngNext T s.F s.lfsr).2, fsm := .noised }) ∧
    (s.fsm = .encoded → 0x100000000 < T.toNat →
      exec (.noise T) s = .next { s with err := .invalidProbability, fsm := .fault }) ∧
    (s.fsm = .idle ∨ s.fsm = .messageLoaded ∨ s.fsm = .noised ∨ s.fsm = .framed →
      exec (.noise T) s = .next { s with err := .sequenceError, fsm := .fault }) ∧
    (s.fsm = .fault → exec (.noise T) s = .next s)

/-- In Noised, FRAME changes only fsm, to Framed, so that rec_valid becomes 1; in Idle, MessageLoaded, Encoded, Framed it
raises SequenceError; Fault ignores. Its word is 0x9000000000. (R255) -/
def Obligations.FrameDeclaresRecordFinal : Prop :=
  (encode .frame).toNat = 0x9000000000 ∧
  ∀ s : State,
    (s.fsm = .noised → exec .frame s = .next { s with fsm := .framed } ∧ recValid { s with fsm := .framed } = true) ∧
    (s.fsm = .idle ∨ s.fsm = .messageLoaded ∨ s.fsm = .encoded ∨ s.fsm = .framed →
      exec .frame s = .next { s with err := .sequenceError, fsm := .fault }) ∧
    (s.fsm = .fault → exec .frame s = .next s)

/-- For every command and state: in Fault every command but CLR leaves the state unchanged; a Seq cell raises
SequenceError; an Empty cell raises EmptyMessage; an ok cell performs the command's own rule: if no operand, input-
length or capacity condition of the command holds, its pseudocode succeeds, the next state is what it gives and fsm is
as its transition row says (unchanged where it has none), and if one holds the first is raised, which is neither of
these two nor IllegalCommand; a reserved word raises IllegalCommand outside Fault and is ignored in Fault. (R252) -/
def Obligations.LegalityTableHolds : Prop :=
  (∀ (i : Instr) (s : State),
    (s.fsm = .fault → i ≠ .clr → exec i s = .next s) ∧
    (seqEntry s.fsm i = true → exec i s = .next { s with err := .sequenceError, fsm := .fault }) ∧
    (emptyEntry s.fsm i = true → exec i s = .next { s with err := .emptyMessage, fsm := .fault }) ∧
    (s.fsm ≠ .fault ∨ i = .clr → seqEntry s.fsm i = false → emptyEntry s.fsm i = false →
      ∃ t, exec i s = .next t ∧
        (operandErrors i s ++ capacityErrors i s = [] →
          commandBody i s = .ok t ∧ t.fsm = (fsmRow s.fsm i).getD s.fsm) ∧
        (∀ e others, operandErrors i s ++ capacityErrors i s = e :: others →
          t = { s with err := e, fsm := .fault }) ∧
        (t.fsm = .fault → t.err = .invalidSymbol ∨ t.err = .malformedInput ∨ t.err = .invalidBlockSize ∨
          t.err = .invalidProbability ∨ t.err = .capacityExceeded))) ∧
  (∀ s : State, takeReserved s = if s.fsm = .fault then s else { s with err := .illegalCommand, fsm := .fault })

/-- For every command and state, the next state has the fsm that the transition row of that command and state gives, or
the same fsm, or, from any state but Fault, Fault with an error recorded; where the row exists and no error is raised
the row is taken; NOP, DECB and SEED leave fsm unchanged unless they raise an error. (R251) -/
def Obligations.FsmMovesOnlyAsListed : Prop :=
  ∀ (i : Instr) (s t : State), exec i s = .next t →
    (t.fsm ≠ s.fsm → fsmRow s.fsm i = some t.fsm ∨ (s.fsm ≠ .fault ∧ t.fsm = .fault ∧ t.err ≠ .noError)) ∧
    (∀ g, fsmRow s.fsm i = some g → t.fsm = g ∨ (s.fsm ≠ .fault ∧ t.fsm = .fault)) ∧
    (i = .nop ∨ i = .decb ∨ (∃ sd, i = .seed sd) → t.fsm = s.fsm ∨ (s.fsm ≠ .fault ∧ t.fsm = .fault))

/-- If a step takes the core from outside Fault into Fault, the next state is the state before, with the cycle taken off
the port, err at some error kind and fsm at Fault: every other register and buffer is as it was, and the output fault
is 1. (R290) -/
def Obligations.FaultEntryIsPrecise : Prop :=
  ∀ s t : State, step s = .next t → s.fsm ≠ .fault → t.fsm = .fault →
    ∃ (c : PortCycle) (rest : List PortCycle) (e : ErrKind), s.port = c :: rest ∧ e ≠ .noError ∧
      t = { s with port := rest, err := e, fsm := .fault } ∧ faultOut t = true

/-- In Fault, a cycle without reset whose word is not CLR, reserved words included, leaves everything but the port
unchanged; a step from Fault ends in Fault or Idle; no record may be taken in Fault. (R291) -/
def Obligations.FaultStateIgnoresCommands : Prop :=
  ∀ s : State, s.fsm = .fault →
    (∀ (c : PortCycle) (rest : List PortCycle), s.port = c :: rest → c.rst = false → decode c.cmd ≠ .ok .clr →
      step s = .next { s with port := rest }) ∧
    (∀ t, step s = .next t → t.fsm = .fault ∨ t.fsm = .idle) ∧
    recValid s = false ∧ recordOf s = none

/-- For a word presented outside Fault: with the conditions in the order IllegalCommand, EmptyMessage or SequenceError,
operand or input-length error, CapacityExceeded, the first that holds is the error raised; if none holds no error is
raised. In Fault nothing is raised: the word is ignored unless it is CLR, which leads to Idle with err 0. (R293) -/
def Obligations.FirstHeldErrorWins : Prop :=
  ∀ (s : State) (c : PortCycle) (rest : List PortCycle), s.port = c :: rest → c.rst = false → c.cmdValid = true →
    (s.fsm ≠ .fault →
      (∀ e others, heldErrors c.cmd s = e :: others →
        step s = .next { s with port := rest, err := e, fsm := .fault }) ∧
      (heldErrors c.cmd s = [] → ∃ t, step s = .next t ∧ t.fsm ≠ .fault)) ∧
    (s.fsm = .fault → decode c.cmd ≠ .ok .clr → step s = .next { s with port := rest }) ∧
    (s.fsm = .fault → decode c.cmd = .ok .clr → ∃ t, step s = .next t ∧ t.fsm = .idle ∧ t.err = .noError)

/-- The codes of the nine values of err are 0 to 8 in the table's order; a command that enters Fault raised one of the
kinds the table lists for it: SequenceError for any but NOP and CLR, InvalidSymbol only PUTSYM, MalformedInput only
DECB, InvalidBlockSize only ENCHAM, InvalidProbability only NOISE, EmptyMessage only the encoders, CapacityExceeded
only PUTB, PUTSYM and the encoders, IllegalCommand none. (spec/60_exceptions.md, the table of rule R280) -/
def Obligations.CommandsRaiseOnlyListedErrors : Prop :=
  (errCode .noError = 0 ∧ errCode .invalidSymbol = 1 ∧ errCode .malformedInput = 2 ∧ errCode .invalidBlockSize = 3 ∧
    errCode .invalidProbability = 4 ∧ errCode .emptyMessage = 5 ∧ errCode .sequenceError = 6 ∧
    errCode .illegalCommand = 7 ∧ errCode .capacityExceeded = 8) ∧
  (∀ (i : Instr) (s t : State), exec i s = .next t → s.fsm ≠ .fault → t.fsm = .fault →
    (t.err = .invalidSymbol ∧ ∃ b, i = .putsym b) ∨ (t.err = .malformedInput ∧ i = .decb) ∨
    (t.err = .invalidBlockSize ∧ ∃ k, i = .encham k) ∨ (t.err = .invalidProbability ∧ ∃ T, i = .noise T) ∨
    (t.err = .emptyMessage ∧ (i = .enccrc ∨ ∃ k, i = .encham k)) ∨
    (t.err = .sequenceError ∧ i ≠ .nop ∧ i ≠ .clr) ∨
    (t.err = .capacityExceeded ∧ s.cap ≠ none ∧
      ((∃ b, i = .putb b) ∨ (∃ b, i = .putsym b) ∨ i = .enccrc ∨ ∃ k, i = .encham k)))

/-- The state after reset meets the invariant Inv. (spec/10_state.md, section 7 (rule R37); spec/20_memory.md, rule R70) -/
def Obligations.InvHoldsAfterReset : Prop :=
  Inv State.reset

/-- From every state that meets Inv, whatever cycle the port has next, the step's next state meets Inv: err is 0 exactly
outside Fault; Idle and MessageLoaded have no frame; a frame's registers, length and clean content are those of its
encoder and M; the default lfsr is never zero; B holds the first octets of M; msg_len is at most len(M)/8; no buffer
exceeds CAP. (spec/10_state.md, section 7 (rule R37); (g) in the form Inv's docstring gives; spec/20_memory.md, rule
R70) -/
def Obligations.EveryStepKeepsInv : Prop :=
  ∀ s t : State, Inv s → step s = .next t → Inv t

/-- For every state, the next state has the same CAP and the same instance of the random source, the default LFSR or the
open one (that the parameters stand in the state is the model's choice, log entries 2 and 3). (spec/00_scope.md, rule
R6; notes/assumptions/2.md and notes/assumptions/3.md) -/
def Obligations.StepsKeepParameters : Prop :=
  ∀ s t : State, step s = .next t → t.cap = s.cap ∧ sameSource s.lfsr t.lfsr

/-- For every command: M changes only by PUTB, PUTSYM, CLR; F only by ENCCRC, ENCHAM, NOISE, CLR; B only by DECB, CLR;
msg_len only by PUTB, CLR; crc only by ENCCRC, CLR; algo, k, r, pad_bits only by ENCCRC, ENCHAM, CLR; lfsr only by
SEED, NOISE; the port by none. (spec/20_memory.md, the table of rule R60 and rule R71; spec/10_state.md, rules R24 to
R32) -/
def Obligations.OnlyListedCommandsWriteState : Prop :=
  ∀ (i : Instr) (s t : State), exec i s = .next t →
    (t.M ≠ s.M → (∃ b, i = .putb b) ∨ (∃ b, i = .putsym b) ∨ i = .clr) ∧
    (t.F ≠ s.F → i = .enccrc ∨ (∃ k, i = .encham k) ∨ (∃ T, i = .noise T) ∨ i = .clr) ∧
    (t.B ≠ s.B → i = .decb ∨ i = .clr) ∧
    (t.msgLen ≠ s.msgLen → (∃ b, i = .putb b) ∨ i = .clr) ∧
    (t.crc ≠ s.crc → i = .enccrc ∨ i = .clr) ∧
    (t.algo ≠ s.algo ∨ t.k ≠ s.k ∨ t.r ≠ s.r ∨ t.padBits ≠ s.padBits →
      i = .enccrc ∨ (∃ k, i = .encham k) ∨ i = .clr) ∧
    (t.lfsr ≠ s.lfsr → (∃ sd, i = .seed sd) ∨ ∃ T, i = .noise T) ∧
    t.port = s.port

/-- For every octet sequence x, bytes_to_bits(x) has 8 * len(x) bits, and its element 8j + i is bit 7 - i of x[j], for
every j below len(x) and i below 8. (R130) -/
def Obligations.BytesToBitsByIndex : Prop :=
  ∀ x : List Octet, (bytesToBits x).length = 8 * x.length ∧
    ∀ j i, i < 8 → (bytesToBits x)[8 * j + i]? = (x[j]?).map fun b => b.getLsbD (7 - i)

/-- For a bit sequence X whose length is a multiple of 8, bits_to_bytes(X) has len(X)/8 octets and bit 7 - i of octet j is
X[8j + i]; for any other length it has no value. (R131) -/
def Obligations.BitsToBytesByIndex : Prop :=
  ∀ X : Bits, (X.length % 8 ≠ 0 → bitsToBytes X = none) ∧
    (X.length % 8 = 0 → ∃ y, bitsToBytes X = some y ∧ y.length = X.length / 8 ∧
      ∀ j i, i < 8 → X[8 * j + i]? = (y[j]?).map fun b => b.getLsbD (7 - i))

/-- bits_to_bytes(bytes_to_bits(x)) = x for every octet sequence x, and bytes_to_bits(bits_to_bytes(X)) = X for every X
whose length is a multiple of 8. (R132) -/
def Obligations.BytesAndBitsRoundTrip : Prop :=
  (∀ x : List Octet, bitsToBytes (bytesToBits x) = some x) ∧
  (∀ X : Bits, X.length % 8 = 0 → ∃ y, bitsToBytes X = some y ∧ bytesToBits y = X)

/-- With fb = R[31] XOR b: bit 0 of the next register is fb, the tapped bits 1, 2, 4, 5, 7, 8, 10, 11, 12, 16, 22, 23, 26
are the next lower bit XOR fb, every other bit is the next lower bit; and crc_step of an XOR of registers and bits is
the XOR of the crc_steps. (R153) -/
def Obligations.CrcStepAsGates : Prop :=
  (∀ (R : Word32) (b : Bit),
    let fb := Bool.xor (R.getLsbD 31) b
    (crcStep R b).getLsbD 0 = fb ∧
    ∀ j, 1 ≤ j → j < 32 →
      (crcStep R b).getLsbD j =
        if j ∈ [1, 2, 4, 5, 7, 8, 10, 11, 12, 16, 22, 23, 26] then Bool.xor (R.getLsbD (j - 1)) fb
        else R.getLsbD (j - 1)) ∧
  (∀ (R1 R2 : Word32) (b1 b2 : Bit),
    crcStep (R1 ^^^ R2) (Bool.xor b1 b2) = crcStep R1 b1 ^^^ crcStep R2 b2)

/-- For every bit sequence X, folding crc_step from 0xFFFFFFFF over X with its checksum gives 0xC704DD7B, and
crc32_compute of that frame is 0x38FB2284; an input bit acts as if it had been XORed into bit 31 of the register.
(R160) -/
def Obligations.CrcResidueIsConstant : Prop :=
  (∀ X : Bits, (appendChecksum X).foldl crcStep 0xFFFFFFFF#32 = 0xC704DD7B#32 ∧
    crc32Compute (appendChecksum X) = 0x38FB2284#32) ∧
  (∀ (R : Word32) (b : Bit), crcStep R b = crcStep (R ^^^ (if b then 0x80000000#32 else 0x00000000#32)) false)

/-- When ENCCRC gives Encoded, the frame has len(M) + 32 bits: element i is message bit i, and element len(M) + i is bit
31 - i of the CRC32Value, which the register crc holds. (R96) -/
def Obligations.CrcFrameLayout : Prop :=
  ∀ s t : State, s.fsm = .messageLoaded → exec .enccrc s = .next t → t.fsm = .encoded →
    t.F.length = s.M.length + 32 ∧ t.crc = s.M.foldl crcStep 0xFFFFFFFF#32 ^^^ 0xFFFFFFFF#32 ∧
    (∀ i, i < s.M.length → t.F[i]? = s.M[i]?) ∧
    (∀ i, i < 32 → t.F[s.M.length + i]? = some (t.crc.getLsbD (31 - i)))

/-- In MessageLoaded, where the frame fits, ENCCRC gives the same next state whatever crc held before. (spec/41_crc32.md,
rule R157) -/
def Obligations.CrcForgetsOldRegister : Prop :=
  ∀ (s : State) (v : Word32), s.fsm = .messageLoaded → fits s.cap (s.M.length + 32) →
    exec .enccrc { s with crc := v } = exec .enccrc s

/-- For every k >= 1, r = redundancy_for(k) meets 2^r >= k + r + 1, and no smaller r does. (R180) -/
def Obligations.RedundancyIsSmallest : Prop :=
  ∀ k, 1 ≤ k → k + redundancyFor k + 1 ≤ 2 ^ redundancyFor k ∧
    ∀ r, r < redundancyFor k → 2 ^ r < k + r + 1

/-- For k from 1 to 64, r is 2 for 1, 3 for 2 to 4, 4 for 5 to 11, 5 for 12 to 26, 6 for 27 to 57, 7 for 58 to 64, and k +
r is no power of two. (R181) -/
def Obligations.RedundancyTable : Prop :=
  ∀ k, 1 ≤ k → k ≤ 64 →
    redundancyFor k = (if k = 1 then 2 else if k ≤ 4 then 3 else if k ≤ 11 then 4 else if k ≤ 26 then 5
      else if k ≤ 57 then 6 else 7) ∧
    isPow2 (k + redundancyFor k) = false

/-- For j >= 1, is_pow2(j) holds exactly for the powers of two; for d >= 1, datapos(d) is no power of two and datapos
rises with d; every position from 1 on that is no power of two is datapos(d) for some d >= 1; datapos(d) is d plus the
number of powers of two up to it, which for d up to 64 is 2, 3, 4, 5, 6 or 7 as the closed form says. (R183) -/
def Obligations.DataPositionsSkipPowersOfTwo : Prop :=
  (∀ j, 1 ≤ j → (isPow2 j = true ↔ ∃ e, j = 2 ^ e)) ∧
  (∀ d, 1 ≤ d → isPow2 (dataPos d) = false ∧ dataPos d < dataPos (d + 1)) ∧
  (∀ j, 1 ≤ j → isPow2 j = false → ∃ d, 1 ≤ d ∧ dataPos d = j) ∧
  (∀ d, 1 ≤ d → dataPos d = d + ((List.range' 1 (dataPos d)).filter fun j => isPow2 j).length) ∧
  (∀ d, 1 ≤ d → d ≤ 64 →
    dataPos d = d + (if d = 1 then 2 else if d ≤ 4 then 3 else if d ≤ 11 then 4 else if d ≤ 26 then 5
      else if d ≤ 57 then 6 else 7))

/-- For every k >= 1, with r = redundancy_for(k): the powers of two among positions 1 to k + r are exactly 1, 2, ...,
2^(r-1), the other positions are datapos(1), ..., datapos(k), and datapos(k) = k + r. (R184) -/
def Obligations.BlockHasRParityAndKDataPositions : Prop :=
  ∀ k, 1 ≤ k →
    let r := redundancyFor k
    ((List.range' 1 (k + r)).filter fun j => isPow2 j) = (List.range r).map (fun i => 2 ^ i) ∧
    ((List.range' 1 (k + r)).filter fun j => !isPow2 j) = (List.range' 1 k).map dataPos ∧
    dataPos k = k + r

/-- For a data sequence of length k >= 1, place gives k + r bits; the bit at position datapos(d) is data bit d (sequence
index d - 1) for d from 1 to k, and the bit at every power of two up to k + r is 0. (R185) -/
def Obligations.PlacementPutsDataInOrder : Prop :=
  ∀ data : Bits, 1 ≤ data.length →
    (place data).length = data.length + redundancyFor data.length ∧
    (∀ d, 1 ≤ d → d ≤ data.length → (place data)[dataPos d - 1]? = data[d - 1]?) ∧
    (∀ j, 1 ≤ j → j ≤ data.length + redundancyFor data.length → isPow2 j = true → (place data)[j - 1]? = some false)

/-- For a data sequence of length k >= 1: the bit at position 2^i of the block is the XOR of data bit d over all d with
datapos(d) AND 2^i not 0; the data positions hold the data bits; and computing the r parities in any order gives the
same block. (R187) -/
def Obligations.ParityBitsAreXorsOfData : Prop :=
  ∀ data : Bits, 1 ≤ data.length →
    (∀ i, i < redundancyFor data.length →
      (encodeBlock data)[2 ^ i - 1]? =
        some (((List.range' 1 data.length).filter fun d => dataPos d &&& 2 ^ i ≠ 0).foldl
          (fun acc d => Bool.xor acc (data.getD (d - 1) false)) false)) ∧
    (∀ d, 1 ≤ d → d ≤ data.length → (encodeBlock data)[dataPos d - 1]? = data[d - 1]?) ∧
    (∀ order : List Nat, order.Perm (List.range (redundancyFor data.length)) →
      order.foldl storeParity (place data) = encodeBlock data)

/-- For a data sequence of length k >= 1 and its block H: the XOR over every parity group i < r is 0; if the bit at
position j of H is flipped, the sum (the bitwise OR) of 2^i over the groups i whose XOR is then 1 is j. (R189) -/
def Obligations.BlockParityEvenAndErrorLocated : Prop :=
  ∀ data : Bits, 1 ≤ data.length →
    let H := encodeBlock data
    let r := redundancyFor data.length
    (∀ i, i < r → groupXor (2 ^ i) H = false) ∧
    (∀ j, 1 ≤ j → j ≤ data.length + r →
      (((List.range r).filter fun i => groupXor (2 ^ i) (H.set (j - 1) (!(H.getD (j - 1) false)))).map
        fun i => 2 ^ i).sum = j)

/-- For every bit sequence X and k >= 1: pad = (k - len(X) mod k) mod k, at most k - 1, 0 exactly when k divides len(X);
nb = (len(X) + pad) / k is exact; the frame has nb * (k + r) bits; its slice j is the block of chunk j of X with pad
zeros; the empty sequence gives the empty frame; a shorter non-empty X than k gives one block. (R190; R191) -/
def Obligations.StreamIsBlocksOfPaddedMessage : Prop :=
  ∀ (X : Bits) (k : Nat), 1 ≤ k →
    let c := encodeStream X k
    let nb := (X.length + c.pad) / k
    c.r = redundancyFor k ∧ c.pad = (k - X.length % k) % k ∧ c.pad ≤ k - 1 ∧ (c.pad = 0 ↔ k ∣ X.length) ∧
    nb * k = X.length + c.pad ∧ c.frame.length = nb * (k + c.r) ∧
    (∀ j, j < nb →
      (c.frame.drop (j * (k + c.r))).take (k + c.r) =
        encodeBlock (((X ++ zeros c.pad).drop (j * k)).take k)) ∧
    (X = [] → c.frame = []) ∧ (1 ≤ X.length → X.length < k → nb = 1)

/-- For every random source, threshold, frame and generator state: the output has the frame's length; output bit i is
frame bit i XOR (sample i below T), sample i being the i-th draw; the generator ends after exactly as many draws as
the frame has bits. (R222) -/
def Obligations.ChannelDrawsOneSamplePerBit : Prop :=
  ∀ (σ : Type) (next : σ → σ × Word32) (T : Operand36) (frame : Bits) (s : σ),
    (bscApply next T frame s).1.length = frame.length ∧
    (∀ i, (bscApply next T frame s).1[i]? =
      (frame[i]?).map fun b => Bool.xor b (decide ((nthSample next i s).toNat < T.toNat))) ∧
    (bscApply next T frame s).2 = afterSamples next frame.length s

/-- For every RandomSource and state: T = 0 gives the frame unchanged, T = 2^32 gives the bitwise complement, and the
length is preserved for every T. (R229) -/
def Obligations.ChannelEndCases : Prop :=
  ∀ (σ : Type) (source : RandomSource σ) (frame : Bits) (s : σ),
    (bscApply source.rngNext 0x000000000#36 frame s).1 = frame ∧
    (bscApply source.rngNext 0x100000000#36 frame s).1 = frame.map (fun b => !b) ∧
    (∀ T, (bscApply source.rngNext T frame s).1.length = frame.length)

/-- For every 32-bit v: lfsr_step(v) is v shifted left by one with the top bit dropped, XORed with 0x04C11DB7 when the top
bit was 1; it equals crc_step(v, 0); lfsr_step(0) = 0, and lfsr_step(v) is not 0 for v not 0; lfsr_step is linear over
XOR and one to one. (R224) -/
def Obligations.LfsrStepShiftsWithFeedback : Prop :=
  lfsrStep 0x00000000#32 = 0x00000000#32 ∧
  ∀ v : Word32,
    (lfsrStep v).toNat =
      (2 * v.toNat % 0x100000000) ^^^ (if 0x80000000 ≤ v.toNat then 0x04C11DB7 else 0) ∧
    lfsrStep v = crcStep v false ∧ (v ≠ 0x00000000#32 → lfsrStep v ≠ 0x00000000#32) ∧
    (∀ w : Word32, lfsrStep (v ^^^ w) = lfsrStep v ^^^ lfsrStep w ∧ (lfsrStep v = lfsrStep w → v = w))

/-- Two cores in Encoded with the same frame and the same kind of random source, each given SEED with one seed and then
NOISE with one threshold, end with the same frame and the same generator state. (spec/70_reset_and_hazards.md, rule
R325 (a)) -/
def Obligations.SeededNoiseRepeats : Prop :=
  ∀ (s1 s2 t1 t2 u1 u2 : State) (sd : Word32) (T : Operand36),
    s1.fsm = .encoded → s2.fsm = .encoded → s1.F = s2.F → sameSource s1.lfsr s2.lfsr →
    exec (.seed sd) s1 = .next t1 → exec (.seed sd) s2 = .next t2 →
    exec (.noise T) t1 = .next u1 → exec (.noise T) t2 = .next u2 →
    u1.F = u2.F ∧ u1.lfsr = u2.lfsr

/-- The default source's rng_reset is 0xFFFFFFFF and its rng_seed loads 0xFFFFFFFF for 0 and the seed otherwise; after n
samples from v its state is lfsr_step applied 32n times, and the next sample is lfsr_step applied 32(n + 1) times; a
core whose lfsr holds v uses it; the first eight samples after reset are C704DD7B 6904BB59 099C5421 552D22C8 4E26540F
FBAC7C3A 6811F1FE 4A55AF67. (R225) -/
def Obligations.DefaultSourceIsLfsr : Prop :=
  lfsrSource.rngReset = 0xFFFFFFFF#32 ∧
  (∀ sd : Word32, lfsrSource.rngSeed sd = if sd.toNat = 0 then 0xFFFFFFFF#32 else sd) ∧
  (∀ (v : Word32) (n : Nat), afterSamples lfsrSource.rngNext n v = lfsrStep^[32 * n] v ∧
    nthSample lfsrSource.rngNext n v = lfsrStep^[32 * (n + 1)] v) ∧
  (∀ v : Word32, rngNext (.lfsr v) = (.lfsr (lfsrStep^[32] v), lfsrStep^[32] v)) ∧
  (List.range 8).map (fun n => nthSample lfsrSource.rngNext n 0xFFFFFFFF#32) =
    [0xC704DD7B#32, 0x6904BB59#32, 0x099C5421#32, 0x552D22C8#32, 0x4E26540F#32, 0xFBAC7C3A#32, 0x6811F1FE#32,
     0x4A55AF67#32]

/-- For every non-zero v, 2^32 - 1 steps of lfsr_step give v back and no smaller positive number of steps does; the same
holds of lfsr_next. (spec/43_noise_channel.md, rule R226) -/
def Obligations.LfsrHasFullPeriod : Prop :=
  ∀ v : Word32, v ≠ 0x00000000#32 →
    (lfsrStep^[0xFFFFFFFF] v = v ∧ ∀ n, 0 < n → n < 0xFFFFFFFF → lfsrStep^[n] v ≠ v) ∧
    (lfsrNext^[0xFFFFFFFF] v = v ∧ ∀ n, 0 < n → n < 0xFFFFFFFF → lfsrNext^[n] v ≠ v)

/-- For every state: fault is 1 exactly in Fault, rec_valid exactly in Framed, cmd_ready always; fsm_state is 0 to 5 for
Idle, MessageLoaded, Encoded, Noised, Framed, Fault, algo 0 to 2 for NONE, CRC32, HAMMING, err 0 to 8 in the order of
the error table; k, r, pad_bits, crc_value and msg_len show their registers, mlen, flen and blen the lengths of M, F
and B. The two views of crc_value: bit i of the first is bit 31 - i, digit j of the eight hexadecimal digits is bits
31 - 4j to 28 - 4j. For every index: f_valid is 1 exactly when f_addr is below len(F), and then f_bit is F[f_addr],
otherwise there is no value (the model's choice of the two ways R68 leaves, log 8); likewise b_valid and b_byte for B.
(spec/10_state.md, rules R21, R28 and R34; spec/20_memory.md, rules R67 and R68; spec/30_encoding.md, rules R99, R100
and R101; spec/60_exceptions.md, the codes of rule R280; spec/92_eei_decisions.md, D2; notes/assumptions/8.md (no
value past the end: the model's choice)) -/
def Obligations.OutputsAreFunctionsOfState : Prop :=
  ∀ (s : State) (fAddr bAddr : Nat),
    let o := outputs s fAddr bAddr
    (o.fault = true ↔ s.fsm = .fault) ∧ (o.recValid = true ↔ s.fsm = .framed) ∧ o.cmdReady = true ∧
    (s.fsm = .idle → o.fsmState = 0#3) ∧ (s.fsm = .messageLoaded → o.fsmState = 1#3) ∧
    (s.fsm = .encoded → o.fsmState = 2#3) ∧ (s.fsm = .noised → o.fsmState = 3#3) ∧
    (s.fsm = .framed → o.fsmState = 4#3) ∧ (s.fsm = .fault → o.fsmState = 5#3) ∧
    (s.algo = .none → o.algo = 0#2) ∧ (s.algo = .crc32 → o.algo = 1#2) ∧ (s.algo = .hamming → o.algo = 2#2) ∧
    (s.err = .noError → o.err = 0#4) ∧ (s.err = .invalidSymbol → o.err = 1#4) ∧
    (s.err = .malformedInput → o.err = 2#4) ∧ (s.err = .invalidBlockSize → o.err = 3#4) ∧
    (s.err = .invalidProbability → o.err = 4#4) ∧ (s.err = .emptyMessage → o.err = 5#4) ∧
    (s.err = .sequenceError → o.err = 6#4) ∧ (s.err = .illegalCommand → o.err = 7#4) ∧
    (s.err = .capacityExceeded → o.err = 8#4) ∧
    o.k = s.k ∧ o.r = s.r ∧ o.padBits = s.padBits ∧ o.crcValue = s.crc ∧ o.msgLen = s.msgLen ∧
    o.mlen = s.M.length ∧ o.flen = s.F.length ∧ o.blen = s.B.length ∧
    (toBits o.crcValue).length = 32 ∧ (∀ i, i < 32 → (toBits o.crcValue)[i]? = some (o.crcValue.getLsbD (31 - i))) ∧
    (hexDigits o.crcValue).length = 8 ∧
    (∀ j, j < 8 → (hexDigits o.crcValue)[j]? = some (BitVec.ofNat 4 (o.crcValue.toNat / 2 ^ (28 - 4 * j)))) ∧
    (o.fValid = true ↔ fAddr < s.F.length) ∧
    (∀ h : fAddr < s.F.length, o.fBit = some s.F[fAddr]) ∧ (s.F.length ≤ fAddr → o.fBit = none) ∧
    (o.bValid = true ↔ bAddr < s.B.length) ∧
    (∀ h : bAddr < s.B.length, o.bByte = some s.B[bAddr]) ∧ (s.B.length ≤ bAddr → o.bByte = none)

/-- The record is there exactly in Framed, and holds msg_len, algo, the bits of F in order, pad_bits, r, k and the CRC
register; in a Framed state that meets Inv algo is CRC32 or HAMMING, and for CRC32 pad_bits, r and k are 0 and
crc_value is the CRC of M, not of the noised frame. From Framed, a step whose cycle is neither reset nor CLR leaves
msg_len, algo, pad_bits, r, k, crc and every bit of F as they are; it stays in Framed, with the same record, for NOP
and for a cycle without a command, and goes to Fault, where there is no record, for any other word.
(spec/44_framebuilder_control.md, rule R256; spec/30_encoding.md, the table of rule R99; spec/60_exceptions.md, rule
R291 (no record in Fault); spec/70_reset_and_hazards.md, rule R326) -/
def Obligations.FramedRecordStays : Prop :=
  (∀ s : State, s.fsm = .framed → recordOf s = some
    { msgLen := s.msgLen, algo := s.algo, frameBits := s.F, padBits := s.padBits, r := s.r, k := s.k,
      crcValue := s.crc }) ∧
  (∀ s : State, s.fsm ≠ .framed → recordOf s = none) ∧
  (∀ s : State, Inv s → s.fsm = .framed → (s.algo = .crc32 ∨ s.algo = .hamming) ∧
    (s.algo = .crc32 → s.padBits = 0 ∧ s.r = 0 ∧ s.k = 0 ∧ s.crc = crc32Compute s.M)) ∧
  ∀ (s t : State) (c : PortCycle) (rest : List PortCycle), s.fsm = .framed → s.port = c :: rest → c.rst = false →
    ¬ (c.cmdValid = true ∧ decode c.cmd = .ok .clr) → step s = .next t →
    t.msgLen = s.msgLen ∧ t.algo = s.algo ∧ t.padBits = s.padBits ∧ t.r = s.r ∧ t.k = s.k ∧ t.crc = s.crc ∧ t.F = s.F ∧
    (c.cmdValid = false ∨ decode c.cmd = .ok .nop → t = { s with port := rest } ∧ recordOf t = recordOf s) ∧
    (c.cmdValid = true → decode c.cmd ≠ .ok .nop → t.fsm = .fault ∧ recordOf t = none)

/-- In every state that meets Inv and holds a Hamming frame, with L = len(M): nb = (flen - L - pad_bits) / r is the number
of blocks and (L + pad_bits) / nb is k. (spec/30_encoding.md, the row of k in rule R99) -/
def Obligations.RecordDeterminesBlockSize : Prop :=
  ∀ s : State, Inv s → hasFrame s.fsm = true → s.algo = .hamming →
    (s.M.length + s.padBits.toNat) / ((s.F.length - s.M.length - s.padBits.toNat) / s.r.toNat) = s.k.toNat ∧
    ((s.F.length - s.M.length - s.padBits.toNat) / s.r.toNat) * (s.k.toNat + s.r.toNat) = s.F.length

/-- When DECB succeeds, for every j below len(B) the read MemRead(M, 8j, 8) is defined and is the bits of B[j], bit 7
first, however the bits of M were loaded. (spec/20_memory.md, rule R65) -/
def Obligations.DecbReadsMessageByOctets : Prop :=
  ∀ s t : State, s.fsm = .idle ∨ s.fsm = .messageLoaded → exec .decb s = .next t → t.fsm = s.fsm →
    ∀ (j : Nat) (b : Octet), t.B[j]? = some b →
      memRead s.M (8 * j) 8 = some [b.getLsbD 7, b.getLsbD 6, b.getLsbD 5, b.getLsbD 4, b.getLsbD 3, b.getLsbD 2,
        b.getLsbD 1, b.getLsbD 0]

/-- For every non-empty octet sequence x, legal threshold T and state, presenting CLR, PUTB of each octet, ENCCRC, NOISE
T, FRAME ends in Framed with msg_len = len(x), M = bytes_to_bits(x), crc = crc32_compute(M), (F, lfsr) =
bsc_apply(append_checksum(M), T, lfsr before), pad_bits = r = k = 0; with ENCHAM kk, 1 <= kk <= 64, in place of
ENCCRC, with algo HAMMING, k = kk, r, pad_bits and the frame of encode_stream(M, kk) through the channel, crc =
0xFFFFFFFF; where CAP is not exceeded. (RenderedLineAssembles says that these are the lists that SENDCRC and SENDHAM
stand for.) (R257) -/
def Obligations.PipelineMakesRecord : Prop :=
  ∀ (x : List Octet) (T : Operand36) (s : State) (rest : List PortCycle), x ≠ [] → T.toNat ≤ 0x100000000 →
    let M := bytesToBits x
    (fits s.cap (8 * x.length + 32) →
      s.port = presentAll ([.clr] ++ x.map .putb ++ [.enccrc, .noise T, .frame]) ++ rest →
      Sys2Proof.core.run (x.length + 4) s = .next
        { fsm := .framed, err := .noError, M := M, msgLen := x.length,
          F := (bscApply rngNext T (appendChecksum M) s.lfsr).1, B := [], crc := crc32Compute M, algo := .crc32,
          k := 0, r := 0, padBits := 0, lfsr := (bscApply rngNext T (appendChecksum M) s.lfsr).2, cap := s.cap,
          port := rest }) ∧
    (∀ kk : Operand36, 1 ≤ kk.toNat → kk.toNat ≤ 64 → fits s.cap (8 * x.length) →
      fits s.cap (encodeStream M kk.toNat).frame.length →
      s.port = presentAll ([.clr] ++ x.map .putb ++ [.encham kk, .noise T, .frame]) ++ rest →
      ∃ t, Sys2Proof.core.run (x.length + 4) s = .next t ∧ t.fsm = .framed ∧ t.err = .noError ∧ t.M = M ∧
        t.msgLen = x.length ∧ t.B = [] ∧ t.crc = 0xFFFFFFFF#32 ∧ t.algo = .hamming ∧ t.k.toNat = kk.toNat ∧
        t.r.toNat = (encodeStream M kk.toNat).r ∧ t.padBits.toNat = (encodeStream M kk.toNat).pad ∧
        (t.F, t.lfsr) = bscApply rngNext T (encodeStream M kk.toNat).frame s.lfsr ∧ t.cap = s.cap ∧ t.port = rest)

/-- For natural num <= den, den not 0: threshold_of is the floor of num/den * 2^32 + 1/2 over the rationals and is at most
2^32. (spec/43_noise_channel.md, rule R223) -/
def Obligations.ThresholdRoundsProbability : Prop :=
  ∀ num den : Nat, 0 < den → num ≤ den →
    (thresholdOf num den : ℤ) = ⌊(num : ℚ) / (den : ℚ) * 2 ^ 32 + 1 / 2⌋ ∧ thresholdOf num den ≤ 0x100000000

/-- For a decimal fraction p with a non-zero denominator, in Encoded: if 0 <= p <= 1 the one command of NOISEP p goes to
Noised with the threshold of p, otherwise it raises InvalidProbability. (spec/30_encoding.md, the row NOISEP of rule
R103) -/
def Obligations.NoisepAcceptsExactlyProbabilities : Prop :=
  ∀ (p : Fraction) (s : State), 0 < p.den → s.fsm = .encoded →
    ∃ T, expandNoisep p = [.noise T] ∧
      ((p.negative = false ∨ p.num = 0) ∧ p.num ≤ p.den →
        T.toNat = thresholdOf p.num p.den ∧ ∃ t, exec (.noise T) s = .next t ∧ t.fsm = .noised) ∧
      ((p.negative = true ∧ p.num ≠ 0) ∨ p.den < p.num →
        exec (.noise T) s = .next { s with err := .invalidProbability, fsm := .fault })

/-- For every command, its mnemonic in upper case with its operand in hexadecimal is a line of the notation that stands
for that one command. For every text of ASCII characters other than the double quote, with codes x, PUTS of it stands
for PUTB of each code in order and PUTBITS for PUTSYM of each, whatever they are (the empty text for nothing). Where a
text is the decimal fraction p, NOISEP of it stands for the one NOISE of p's threshold T, and SENDCRC and SENDHAM of a
text and it for CLR, the PUTBs, ENCCRC or ENCHAM k, NOISE T, FRAME. Performed with an empty text, from any state,
these two end in Fault with EmptyMessage. (spec/30_encoding.md, rules R102 and R103; spec/60_exceptions.md, rule R285;
notes/assumptions/11.md (the text form's details are the model's)) -/
def Obligations.RenderedLineAssembles : Prop :=
  (∀ i : Instr, assembleLine (renderLine i) = some [i]) ∧
  (∀ text : List Char, (∀ c ∈ text, c.toNat < 128 ∧ c ≠ '\"') →
    let x : List Octet := text.map fun c => BitVec.ofNat 8 c.toNat
    let quoted := ['\"'] ++ text ++ ['\"']
    assembleLine (['P', 'U', 'T', 'S', ' '] ++ quoted) = some (x.map .putb) ∧
    assembleLine (['P', 'U', 'T', 'B', 'I', 'T', 'S', ' '] ++ quoted) = some (x.map .putsym) ∧
    ∀ (number : List Char) (p : Fraction) (k : Operand36), readFraction number = some (p, []) →
      let T := noisepThreshold p
      assembleLine (['N', 'O', 'I', 'S', 'E', 'P', ' '] ++ number) = some [.noise T] ∧
      assembleLine (['S', 'E', 'N', 'D', 'C', 'R', 'C', ' '] ++ quoted ++ [',', ' '] ++ number) =
        some ([.clr] ++ x.map .putb ++ [.enccrc, .noise T, .frame]) ∧
      assembleLine (['S', 'E', 'N', 'D', 'H', 'A', 'M', ' '] ++ quoted ++ [',', ' ', '0', 'x'] ++ hexText 9 k.toNat ++
        [',', ' '] ++ number) = some ([.clr] ++ x.map .putb ++ [.encham k, .noise T, .frame])) ∧
  (∀ (x : List Octet) (p : Fraction) (k : Operand36),
    expandPuts x = x.map .putb ∧ expandPutbits x = x.map .putsym ∧ expandNoisep p = [.noise (noisepThreshold p)] ∧
    expandSendcrc x p = [.clr] ++ x.map .putb ++ [.enccrc, .noise (noisepThreshold p), .frame] ∧
    expandSendham x k p = [.clr] ++ x.map .putb ++ [.encham k, .noise (noisepThreshold p), .frame]) ∧
  (∀ (s : State) (p : Fraction) (k : Operand36) (rest : List PortCycle),
    s.port = presentAll (expandSendcrc [] p) ++ rest ∨ s.port = presentAll (expandSendham [] k p) ++ rest →
    ∃ t, Sys2Proof.core.run 4 s = .next t ∧ t.fsm = .fault ∧ t.err = .emptyMessage ∧ t.F = [] ∧ t.port = rest)
end

