-- ==== Sys2Proof/Laws/State.lean ====
section
/-! SUPPORT. The fields of the states that the shared operations give, one lemma per field per operation, so that no
proof unfolds a record update. -/

namespace Sys2Proof.Machine

/-! ### Taking an error (R290) -/

@[simp] theorem raiseError_fsm (e : ErrKind) (s : State) : (raiseError e s).fsm = .fault := rfl
@[simp] theorem raiseError_err (e : ErrKind) (s : State) : (raiseError e s).err = e := rfl
@[simp] theorem raiseError_M (e : ErrKind) (s : State) : (raiseError e s).M = s.M := rfl
@[simp] theorem raiseError_msgLen (e : ErrKind) (s : State) : (raiseError e s).msgLen = s.msgLen := rfl
@[simp] theorem raiseError_F (e : ErrKind) (s : State) : (raiseError e s).F = s.F := rfl
@[simp] theorem raiseError_B (e : ErrKind) (s : State) : (raiseError e s).B = s.B := rfl
@[simp] theorem raiseError_crc (e : ErrKind) (s : State) : (raiseError e s).crc = s.crc := rfl
@[simp] theorem raiseError_algo (e : ErrKind) (s : State) : (raiseError e s).algo = s.algo := rfl
@[simp] theorem raiseError_k (e : ErrKind) (s : State) : (raiseError e s).k = s.k := rfl
@[simp] theorem raiseError_r (e : ErrKind) (s : State) : (raiseError e s).r = s.r := rfl
@[simp] theorem raiseError_padBits (e : ErrKind) (s : State) : (raiseError e s).padBits = s.padBits := rfl
@[simp] theorem raiseError_lfsr (e : ErrKind) (s : State) : (raiseError e s).lfsr = s.lfsr := rfl
@[simp] theorem raiseError_cap (e : ErrKind) (s : State) : (raiseError e s).cap = s.cap := rfl
@[simp] theorem raiseError_port (e : ErrKind) (s : State) : (raiseError e s).port = s.port := rfl

/-! ### The return, `CLR` (R254) -/

@[simp] theorem clearRun_fsm (s : State) : (clearRun s).fsm = .idle := rfl
@[simp] theorem clearRun_err (s : State) : (clearRun s).err = .noError := rfl
@[simp] theorem clearRun_M (s : State) : (clearRun s).M = [] := rfl
@[simp] theorem clearRun_msgLen (s : State) : (clearRun s).msgLen = 0 := rfl
@[simp] theorem clearRun_F (s : State) : (clearRun s).F = [] := rfl
@[simp] theorem clearRun_B (s : State) : (clearRun s).B = [] := rfl
@[simp] theorem clearRun_crc (s : State) : (clearRun s).crc = 0xFFFFFFFF#32 := rfl
@[simp] theorem clearRun_algo (s : State) : (clearRun s).algo = .none := rfl
@[simp] theorem clearRun_k (s : State) : (clearRun s).k = 0 := rfl
@[simp] theorem clearRun_r (s : State) : (clearRun s).r = 0 := rfl
@[simp] theorem clearRun_padBits (s : State) : (clearRun s).padBits = 0 := rfl
@[simp] theorem clearRun_lfsr (s : State) : (clearRun s).lfsr = s.lfsr := rfl
@[simp] theorem clearRun_cap (s : State) : (clearRun s).cap = s.cap := rfl
@[simp] theorem clearRun_port (s : State) : (clearRun s).port = s.port := rfl

/-! ### Reset (R320) -/

@[simp] theorem hardReset_fsm (s : State) : (hardReset s).fsm = .idle := rfl
@[simp] theorem hardReset_err (s : State) : (hardReset s).err = .noError := rfl
@[simp] theorem hardReset_M (s : State) : (hardReset s).M = [] := rfl
@[simp] theorem hardReset_msgLen (s : State) : (hardReset s).msgLen = 0 := rfl
@[simp] theorem hardReset_F (s : State) : (hardReset s).F = [] := rfl
@[simp] theorem hardReset_B (s : State) : (hardReset s).B = [] := rfl
@[simp] theorem hardReset_crc (s : State) : (hardReset s).crc = 0xFFFFFFFF#32 := rfl
@[simp] theorem hardReset_algo (s : State) : (hardReset s).algo = .none := rfl
@[simp] theorem hardReset_k (s : State) : (hardReset s).k = 0 := rfl
@[simp] theorem hardReset_r (s : State) : (hardReset s).r = 0 := rfl
@[simp] theorem hardReset_padBits (s : State) : (hardReset s).padBits = 0 := rfl
@[simp] theorem hardReset_lfsr (s : State) : (hardReset s).lfsr = rngReset s.lfsr := rfl
@[simp] theorem hardReset_cap (s : State) : (hardReset s).cap = s.cap := rfl
@[simp] theorem hardReset_port (s : State) : (hardReset s).port = s.port := rfl

/-! ### The state after reset (R35) -/

@[simp] theorem reset_fsm : State.reset.fsm = .idle := rfl
@[simp] theorem reset_err : State.reset.err = .noError := rfl
@[simp] theorem reset_M : State.reset.M = [] := rfl
@[simp] theorem reset_msgLen : State.reset.msgLen = 0 := rfl
@[simp] theorem reset_F : State.reset.F = [] := rfl
@[simp] theorem reset_B : State.reset.B = [] := rfl
@[simp] theorem reset_crc : State.reset.crc = 0xFFFFFFFF#32 := rfl
@[simp] theorem reset_algo : State.reset.algo = .none := rfl
@[simp] theorem reset_k : State.reset.k = 0 := rfl
@[simp] theorem reset_r : State.reset.r = 0 := rfl
@[simp] theorem reset_padBits : State.reset.padBits = 0 := rfl
@[simp] theorem reset_lfsr : State.reset.lfsr = .lfsr 0xFFFFFFFF#32 := rfl
@[simp] theorem reset_cap : State.reset.cap = none := rfl
@[simp] theorem reset_port : State.reset.port = [] := rfl

/-! ### The host's next word -/

@[simp] theorem withFetchWord_port (s : State) (n w : Nat) :
    (s.withFetchWord n w).port = { rst := false, cmdValid := true, cmd := tableWord n w } :: s.port := rfl

/-- Taking the word back off the port gives the state before it was put there. -/
theorem withFetchWord_drop (s : State) (n w : Nat) : { s.withFetchWord n w with port := s.port } = s := rfl

end Sys2Proof.Machine
end

