-- ==== Sys2Proof/Laws/Ops.lean ====
section
/-! SUPPORT. What each shared operation can do, said once: the capacity bound, the legality table, performing a
command, a reserved word, one cycle of the port, and what keeps the storage's form. -/

namespace Sys2Proof.Machine

/-! ### The capacity bound (R70) -/

theorem exceedsCap_eq_false_iff (cap : Option Nat) (n : Nat) : exceedsCap cap n = false ↔ fits cap n := by
  cases cap <;> simp [exceedsCap, fits]

theorem exceedsCap_eq_true_iff (cap : Option Nat) (n : Nat) :
    exceedsCap cap n = true ↔ ∃ c, cap = some c ∧ c < n := by
  cases cap <;> simp [exceedsCap]

theorem exceedsCap_eq_true_iff_not_fits (cap : Option Nat) (n : Nat) : exceedsCap cap n = true ↔ ¬ fits cap n := by
  rw [← exceedsCap_eq_false_iff, Bool.not_eq_false]

theorem fits_unbounded (n : Nat) : fits none n := by intro c h; cases h

theorem fits_of_le {c n : Nat} (h : n ≤ c) : fits (some c) n := by intro d hd; cases hd; exact h

theorem not_fits_of_lt {c n : Nat} (h : c < n) : ¬ fits (some c) n := fun hf => absurd (hf c rfl) (by omega)

@[simp] theorem exceedsCap_none (n : Nat) : exceedsCap none n = false := rfl

@[simp] theorem exceedsCap_zero (cap : Option Nat) : exceedsCap cap 0 = false := by cases cap <;> simp [exceedsCap]

theorem memoryWf_iff (s : State) :
    Memory.wf s = true ↔ fits s.cap s.M.length ∧ fits s.cap s.F.length ∧ fits s.cap (8 * s.B.length) := by
  simp only [Memory.wf, Bool.and_eq_true, Bool.not_eq_true', exceedsCap_eq_false_iff, and_assoc]

/-! ### The legality table (R252) -/

/-- Only in `Fault` is a command ignored, and `CLR` never is. -/
theorem legality_eq_ign_iff (i : Instr) (f : Fsm) : legality i f = .ign ↔ f = .fault ∧ i ≠ .clr := by
  cases i <;> cases f <;> simp [legality]

/-- The table's rows and columns agree on `Seq`. -/
theorem legality_eq_seq_iff (i : Instr) (f : Fsm) : legality i f = .seq ↔ seqEntry f i = true := by
  cases i <;> cases f <;> simp [legality, seqEntry]

/-- The table's rows and columns agree on `Empty`. -/
theorem legality_eq_empty_iff (i : Instr) (f : Fsm) : legality i f = .empty ↔ emptyEntry f i = true := by
  cases i <;> cases f <;> simp [legality, emptyEntry]

/-! ### Performing a command (R259) -/

/-- All that performing a command can do. -/
theorem perform_cases (i : Instr) (body : State → Except ErrKind State) (s : State) :
    (legality i s.fsm = .ign ∧ perform i body s = s) ∨
    (legality i s.fsm = .seq ∧ perform i body s = raiseError .sequenceError s) ∨
    (legality i s.fsm = .empty ∧ perform i body s = raiseError .emptyMessage s) ∨
    (legality i s.fsm = .ok ∧ ∃ t, body s = .ok t ∧ perform i body s = t) ∨
    (legality i s.fsm = .ok ∧ ∃ e, body s = .error e ∧ perform i body s = raiseError e s) := by
  cases h : legality i s.fsm with
  | ign => simp [perform, h]
  | seq => simp [perform, h]
  | empty => simp [perform, h]
  | ok => cases hb : body s <;> simp [perform, h, hb]

theorem perform_ign {i : Instr} {s : State} (body : State → Except ErrKind State) (h : legality i s.fsm = .ign) :
    perform i body s = s := by simp [perform, h]

theorem perform_seq {i : Instr} {s : State} (body : State → Except ErrKind State) (h : legality i s.fsm = .seq) :
    perform i body s = raiseError .sequenceError s := by simp [perform, h]

theorem perform_empty {i : Instr} {s : State} (body : State → Except ErrKind State) (h : legality i s.fsm = .empty) :
    perform i body s = raiseError .emptyMessage s := by simp [perform, h]

theorem perform_done {i : Instr} {s t : State} {body : State → Except ErrKind State} (h : legality i s.fsm = .ok)
    (hb : body s = .ok t) : perform i body s = t := by simp [perform, h, hb]

theorem perform_raises {i : Instr} {s : State} {e : ErrKind} {body : State → Except ErrKind State}
    (h : legality i s.fsm = .ok) (hb : body s = .error e) : perform i body s = raiseError e s := by
  simp [perform, h, hb]

/-- All that a reserved word can do (R287, R291). -/
theorem takeReserved_cases (s : State) :
    (s.fsm = .fault ∧ takeReserved s = s) ∨ (s.fsm ≠ .fault ∧ takeReserved s = raiseError .illegalCommand s) := by
  cases h : s.fsm <;> simp [takeReserved, h]

/-! ### One cycle of the port (R320, R323) -/

theorem fetch_nil {s : State} (h : s.port = []) : fetch s = (none, s) := by simp [fetch, h]

theorem fetch_reset {s : State} {c : PortCycle} {rest : List PortCycle} (h : s.port = c :: rest) (hr : c.rst = true) :
    fetch s = (none, hardReset { s with port := rest }) := by simp [fetch, h, hr]

theorem fetch_word {s : State} {c : PortCycle} {rest : List PortCycle} (h : s.port = c :: rest) (hr : c.rst = false)
    (hv : c.cmdValid = true) : fetch s = (some c.cmd, { s with port := rest }) := by
  simp [fetch, h, hr, hv, cmdReady]

theorem fetch_quiet {s : State} {c : PortCycle} {rest : List PortCycle} (h : s.port = c :: rest) (hr : c.rst = false)
    (hv : c.cmdValid = false) : fetch s = (none, { s with port := rest }) := by simp [fetch, h, hr, hv]

/-! ### The storage keeps its form (R70) -/

theorem wf_reset : Memory.wf State.reset = true := by decide

theorem wf_raiseError (e : ErrKind) {s : State} (h : Memory.wf s = true) : Memory.wf (raiseError e s) = true := h

theorem wf_clearRun (s : State) : Memory.wf (clearRun s) = true := by simp [Memory.wf]

theorem wf_hardReset (s : State) : Memory.wf (hardReset s) = true := by simp [Memory.wf]

/-- Replacing the message buffer by one that fits. -/
theorem wf_writeM {s t : State} (h : Memory.wf s = true) (hF : t.F = s.F) (hB : t.B = s.B) (hc : t.cap = s.cap)
    (hM : exceedsCap s.cap t.M.length = false) : Memory.wf t = true := by
  simp only [Memory.wf, Bool.and_eq_true, Bool.not_eq_true', hF, hB, hc, hM] at h ⊢
  exact ⟨⟨trivial, h.1.2⟩, h.2⟩

/-- Replacing the frame buffer by one that fits. -/
theorem wf_writeF {s t : State} (h : Memory.wf s = true) (hM : t.M = s.M) (hB : t.B = s.B) (hc : t.cap = s.cap)
    (hF : exceedsCap s.cap t.F.length = false) : Memory.wf t = true := by
  simp only [Memory.wf, Bool.and_eq_true, Bool.not_eq_true', hM, hB, hc, hF] at h ⊢
  exact ⟨⟨h.1.1, trivial⟩, h.2⟩

/-- Replacing the octet buffer by one that fits. -/
theorem wf_writeB {s t : State} (h : Memory.wf s = true) (hM : t.M = s.M) (hF : t.F = s.F) (hc : t.cap = s.cap)
    (hB : exceedsCap s.cap (8 * t.B.length) = false) : Memory.wf t = true := by
  simp only [Memory.wf, Bool.and_eq_true, Bool.not_eq_true', hM, hF, hc, hB] at h ⊢
  exact ⟨⟨h.1.1, h.1.2⟩, trivial⟩

end Sys2Proof.Machine
end

