-- ==== Sys2Proof/Laws/Units.lean ====
section
/-! SUPPORT. The small lemmas of the datapath units, and for each command's pseudocode that it keeps the storage's form
(R70). -/

namespace Sys2Proof.Machine

/-! ### BitConverter -/

@[simp] theorem octetBits_length (b : Octet) : (octetBits b).length = 8 := by simp [octetBits]

theorem octetBits_eq (b : Octet) : octetBits b =
    [b.getLsbD 7, b.getLsbD 6, b.getLsbD 5, b.getLsbD 4, b.getLsbD 3, b.getLsbD 2, b.getLsbD 1, b.getLsbD 0] := rfl

@[simp] theorem bytesToBits_nil : bytesToBits [] = [] := rfl

@[simp] theorem bytesToBits_cons (b : Octet) (x : List Octet) :
    bytesToBits (b :: x) = octetBits b ++ bytesToBits x := rfl

theorem bytesToBits_append (x y : List Octet) : bytesToBits (x ++ y) = bytesToBits x ++ bytesToBits y := by
  simp [bytesToBits]

@[simp] theorem bytesToBits_length (x : List Octet) : (bytesToBits x).length = 8 * x.length := by
  induction x with
  | nil => rfl
  | cons b x ih => simp [ih]; omega

@[simp] theorem octetGroups_length (n : Nat) (X : Bits) : (octetGroups n X).length = n := by
  induction n generalizing X with
  | zero => rfl
  | succ n ih => simp [octetGroups, ih]

theorem bitsToBytes_eq_some {X : Bits} (h : X.length % 8 = 0) :
    bitsToBytes X = some (octetGroups (X.length / 8) X) := by simp [bitsToBytes, h]

theorem bitsToBytes_eq_none {X : Bits} (h : X.length % 8 ≠ 0) : bitsToBytes X = none := by simp [bitsToBytes, h]

theorem putbBody_wf {imm8 : Octet} {s t : State} (h : Memory.wf s = true) (ht : putbBody imm8 s = .ok t) :
    Memory.wf t = true := by
  unfold putbBody at ht
  split at ht
  · cases ht
  · cases ht
    refine wf_writeM h rfl rfl rfl ?_
    simp_all [memAppend]

theorem putsymBody_wf {imm8 : Octet} {s t : State} (h : Memory.wf s = true) (ht : putsymBody imm8 s = .ok t) :
    Memory.wf t = true := by
  unfold putsymBody at ht
  split at ht
  · cases ht
  · split at ht
    · cases ht
    · cases ht
      refine wf_writeM h rfl rfl rfl ?_
      simp_all [memAppend]

theorem decbBody_wf {s t : State} (h : Memory.wf s = true) (ht : decbBody s = .ok t) : Memory.wf t = true := by
  unfold decbBody at ht
  split at ht
  · cases ht
  · next octets ho =>
    cases ht
    refine wf_writeB h rfl rfl rfl ?_
    have hM := ((memoryWf_iff s).1 h).1
    by_cases hm : s.M.length % 8 = 0
    · rw [bitsToBytes_eq_some hm] at ho
      cases ho
      rw [exceedsCap_eq_false_iff]
      intro c hc
      have := hM c hc
      simp only [octetGroups_length]
      omega
    · simp [bitsToBytes_eq_none hm] at ho

/-! ### CRC-32 -/

@[simp] theorem toBits_length (V : Word32) : (toBits V).length = 32 := by simp [toBits]

@[simp] theorem crcFold_nil (R : Word32) : crcFold R [] = R := rfl

@[simp] theorem crcFold_cons (R : Word32) (b : Bit) (X : Bits) : crcFold R (b :: X) = crcFold (crcStep R b) X := rfl

theorem crcFold_append (R : Word32) (X Y : Bits) : crcFold R (X ++ Y) = crcFold (crcFold R X) Y := by
  simp [crcFold]

@[simp] theorem appendChecksum_length (X : Bits) : (appendChecksum X).length = X.length + 32 := by
  simp [appendChecksum]

theorem enccrcBody_wf {s t : State} (h : Memory.wf s = true) (ht : enccrcBody s = .ok t) : Memory.wf t = true := by
  unfold enccrcBody at ht
  split at ht
  · cases ht
  · cases ht
    refine wf_writeF h rfl rfl rfl ?_
    simp_all

/-! ### Hamming -/

@[simp] theorem placeFrom_length (n pos : Nat) (data : Bits) : (placeFrom n pos data).length = n := by
  induction n generalizing pos data with
  | zero => rfl
  | succ n ih => unfold placeFrom; split <;> simp [ih]

@[simp] theorem place_length (data : Bits) : (place data).length = data.length + redundancyFor data.length := by
  simp [place]

@[simp] theorem storeParity_length (blk : Bits) (i : Nat) : (storeParity blk i).length = blk.length := by
  simp [storeParity]

@[simp] theorem parities_length (blk : Bits) (r : Nat) : (parities blk r).length = blk.length := by
  unfold parities
  generalize List.range r = l
  induction l generalizing blk with
  | nil => rfl
  | cons i l ih => simp [ih]

@[simp] theorem encodeBlock_length (data : Bits) :
    (encodeBlock data).length = data.length + redundancyFor data.length := by simp [encodeBlock]

@[simp] theorem encodeStream_pad (X : Bits) (k : Nat) : (encodeStream X k).pad = padFor X.length k := rfl

@[simp] theorem encodeStream_r (X : Bits) (k : Nat) : (encodeStream X k).r = redundancyFor k := rfl

@[simp] theorem zeros_length (n : Nat) : (zeros n).length = n := by simp [zeros]

/-- All that the pseudocode of `ENCHAM` can do (R193). -/
theorem enchamBody_eq (kop : Operand36) (s : State) :
    enchamBody kop s =
      if kop.toNat < 1 ∨ 64 < kop.toNat then .error .invalidBlockSize
      else if exceedsCap s.cap (encodeStream s.M kop.toNat).frame.length then .error .capacityExceeded
      else .ok { s with
        F := (encodeStream s.M kop.toNat).frame, algo := .hamming, k := BitVec.ofNat 7 kop.toNat,
        r := BitVec.ofNat 3 (redundancyFor kop.toNat),
        padBits := BitVec.ofNat 6 (padFor s.M.length kop.toNat), fsm := .encoded } := by
  unfold enchamBody blockSize
  by_cases h : kop.toNat < 1 ∨ 64 < kop.toNat
  · rw [if_pos h, if_pos (by simpa using h)]
  · rw [if_neg h, if_neg (by simpa using h)]; rfl

theorem enchamBody_wf {kop : Operand36} {s t : State} (h : Memory.wf s = true) (ht : enchamBody kop s = .ok t) :
    Memory.wf t = true := by
  rw [enchamBody_eq] at ht
  split at ht
  · cases ht
  · split at ht
    · cases ht
    · cases ht
      refine wf_writeF h rfl rfl rfl ?_
      simp_all

/-! ### Noise channel -/

@[simp] theorem bscApply_nil {σ : Type} (next : σ → σ × Word32) (T : Operand36) (s : σ) :
    bscApply next T [] s = ([], s) := rfl

theorem bscApply_cons {σ : Type} (next : σ → σ × Word32) (T : Operand36) (b : Bit) (X : Bits) (s : σ) :
    bscApply next T (b :: X) s =
      (Bool.xor b (flips (next s).2 T) :: (bscApply next T X (next s).1).1, (bscApply next T X (next s).1).2) := rfl

/-- All that the pseudocode of `NOISE` can do (R228). -/
theorem noiseBody_eq (t : Operand36) (s : State) :
    noiseBody t s = if 0x100000000 < t.toNat then .error .invalidProbability
      else .ok { s with F := (bscApply rngNext t s.F s.lfsr).1, lfsr := (bscApply rngNext t s.F s.lfsr).2,
                        fsm := .noised } := by
  unfold noiseBody flipThreshold
  by_cases h : 0x100000000 < t.toNat
  · rw [if_pos h, if_pos h]
  · rw [if_neg h, if_neg h]

/-- The channel keeps the length (R222), so `NOISE` keeps the storage's form. -/
theorem noiseBody_wf {T : Operand36} {s t : State} (h : Memory.wf s = true) (ht : noiseBody T s = .ok t) :
    Memory.wf t = true := by
  have len : ∀ (X : Bits) (g : RngState), (bscApply rngNext T X g).1.length = X.length := by
    intro X
    induction X with
    | nil => intro g; rfl
    | cons b X ih => intro g; simp [bscApply_cons, ih]
  rw [noiseBody_eq] at ht
  split at ht
  · cases ht
  · cases ht
    refine wf_writeF h rfl rfl rfl ?_
    simp only [len]
    exact (exceedsCap_eq_false_iff _ _).2 ((memoryWf_iff s).1 h).2.1

end Sys2Proof.Machine
end

