-- ==== Sys2Proof/Laws/PerInstr.lean ====
section
/-! SUPPORT. A law of every command as syntax: the word it is written with is well formed and carries the command's
opcode and operand (R91, R93, R95). -/

namespace Sys2Proof.Laws.EncodedWord

/-- What the encoder gives for the command. -/
def Statement (i : Instr) : Prop :=
  i.wellFormed = true ∧ wordWellFormed (encode i) = true ∧ opcodeOf (encode i) = i.opcode ∧
    (operandField (encode i)).toNat = i.operand

theorem wordOf_toNat (op v : Nat) : (wordOf op v).toNat = (op * 0x1000000000 + v) % 0x10000000000 := by
  rw [wordOf, BitVec.toNat_ofNat]

theorem opcodeOf_eq_div (w : CmdWord) : opcodeOf w = w.toNat / 0x1000000000 := by
  have h := w.isLt
  rw [opcodeOf, BitVec.extractLsb'_toNat, Nat.shiftRight_eq_div_pow]
  omega

theorem operandField_eq_mod (w : CmdWord) : (operandField w).toNat = w.toNat % 0x1000000000 := by
  rw [operandField, BitVec.extractLsb'_toNat, Nat.shiftRight_zero]

theorem opcodeOf_wordOf {op v : Nat} (ho : op < 16) (hv : v < 0x1000000000) : opcodeOf (wordOf op v) = op := by
  rw [opcodeOf_eq_div, wordOf_toNat]; omega

theorem operandField_wordOf {op v : Nat} (hv : v < 0x1000000000) :
    (operandField (wordOf op v)).toNat = v := by
  rw [operandField_eq_mod, wordOf_toNat]; omega

/-- The law for a word made of an opcode and an operand. -/
theorem of_parts {i : Instr} (he : encode i = wordOf i.opcode i.operand) (h9 : i.opcode ≤ 9)
    (h36 : i.operand < 0x1000000000) (hw : i.operand < operandBound i.opcode) : Statement i := by
  have ho : opcodeOf (encode i) = i.opcode := by rw [he]; exact opcodeOf_wordOf (by omega) h36
  have hf : (operandField (encode i)).toNat = i.operand := by rw [he]; exact operandField_wordOf h36
  have hm : mbzClear (encode i) = true := by
    have : (operandField (encode i)).toNat < operandBound (opcodeOf (encode i)) := by rw [hf, ho]; exact hw
    simpa [mbzClear, operandField] using this
  refine ⟨by simpa [Instr.wellFormed] using hw, ?_, ho, hf⟩
  simp [wordWellFormed, opcodeAssigned, hm, ho, h9]

theorem nop : Statement .nop := of_parts rfl (by decide) (by decide) (by decide)
theorem clr : Statement .clr := of_parts rfl (by decide) (by decide) (by decide)
theorem putb (imm8 : Octet) : Statement (.putb imm8) :=
  of_parts rfl (by simp [Instr.opcode]) (Nat.lt_trans imm8.isLt (by decide)) imm8.isLt
theorem putsym (imm8 : Octet) : Statement (.putsym imm8) :=
  of_parts rfl (by simp [Instr.opcode]) (Nat.lt_trans imm8.isLt (by decide)) imm8.isLt
theorem decb : Statement .decb := of_parts rfl (by decide) (by decide) (by decide)
theorem enccrc : Statement .enccrc := of_parts rfl (by decide) (by decide) (by decide)
theorem encham (kop : Operand36) : Statement (.encham kop) :=
  of_parts rfl (by simp [Instr.opcode]) kop.isLt kop.isLt
theorem seed (sd : Word32) : Statement (.seed sd) :=
  of_parts rfl (by simp [Instr.opcode]) (Nat.lt_trans sd.isLt (by decide)) sd.isLt
theorem noise (t : Operand36) : Statement (.noise t) :=
  of_parts rfl (by simp [Instr.opcode]) t.isLt t.isLt
theorem frame : Statement .frame := of_parts rfl (by decide) (by decide) (by decide)

end Sys2Proof.Laws.EncodedWord
end

