-- ==== Sys2Proof/Laws/Step.lean ====
section
/-! SUPPORT. What a command and a step can do, each said once: every proof about `exec` or `step` cites these inversion
lemmas instead of unfolding them. -/

namespace Sys2Proof.Machine

/-- All the errors a command's pseudocode can raise (R280, without the table's own two). -/
theorem commandBody_error {i : Instr} {s : State} {e : ErrKind} (hb : commandBody i s = .error e) :
    (e = .invalidSymbol ∧ ∃ b, i = .putsym b) ∨ (e = .malformedInput ∧ i = .decb) ∨
    (e = .invalidBlockSize ∧ ∃ k, i = .encham k) ∨ (e = .invalidProbability ∧ ∃ T, i = .noise T) ∨
    (e = .capacityExceeded ∧ s.cap ≠ none ∧
      ((∃ b, i = .putb b) ∨ (∃ b, i = .putsym b) ∨ i = .enccrc ∨ ∃ k, i = .encham k)) := by
  have hc : ∀ n, exceedsCap s.cap n = true → s.cap ≠ none := by intro n h h'; simp [h'] at h
  cases i <;> simp only [commandBody] at hb
  · cases hb
  · cases hb
  · unfold putbBody at hb
    split at hb <;> cases hb
    simp_all; exact hc _ ‹_›
  · unfold putsymBody at hb
    split at hb
    · cases hb; simp
    · split at hb <;> cases hb
      simp_all; exact hc _ ‹_›
  · unfold decbBody at hb
    split at hb <;> cases hb
    simp
  · unfold enccrcBody at hb
    split at hb <;> cases hb
    simp_all; exact hc _ ‹_›
  · rw [enchamBody_eq] at hb
    split at hb
    · cases hb; simp
    · split at hb <;> cases hb
      simp_all; exact hc _ ‹_›
  · cases hb
  · rw [noiseBody_eq] at hb
    split at hb <;> cases hb
    simp
  · cases hb

/-- All that a command's pseudocode leaves alone when it raises nothing, and the `fsm` it ends in. -/
theorem commandBody_ok {i : Instr} {s t : State} (hb : commandBody i s = .ok t) :
    t.port = s.port ∧ t.cap = s.cap ∧ (t.err = s.err ∨ i = .clr) ∧
    (t.M = s.M ∨ (∃ b, i = .putb b) ∨ (∃ b, i = .putsym b) ∨ i = .clr) ∧
    (t.F = s.F ∨ i = .enccrc ∨ (∃ k, i = .encham k) ∨ (∃ T, i = .noise T) ∨ i = .clr) ∧
    (t.B = s.B ∨ i = .decb ∨ i = .clr) ∧
    (t.msgLen = s.msgLen ∨ (∃ b, i = .putb b) ∨ i = .clr) ∧
    (t.crc = s.crc ∨ i = .enccrc ∨ i = .clr) ∧
    ((t.algo = s.algo ∧ t.k = s.k ∧ t.r = s.r ∧ t.padBits = s.padBits) ∨
      i = .enccrc ∨ (∃ k, i = .encham k) ∨ i = .clr) ∧
    (t.lfsr = s.lfsr ∨ (∃ sd, i = .seed sd) ∨ ∃ T, i = .noise T) ∧
    t.fsm = match i with
      | .nop => s.fsm
      | .decb => s.fsm
      | .seed _ => s.fsm
      | .clr => .idle
      | .putb _ => .messageLoaded
      | .putsym _ => .messageLoaded
      | .enccrc => .encoded
      | .encham _ => .encoded
      | .noise _ => .noised
      | .frame => .framed := by
  cases i <;> simp only [commandBody] at hb
  · cases hb; simp
  · cases hb; simp
  · unfold putbBody at hb
    split at hb <;> cases hb
    simp
  · unfold putsymBody at hb
    split at hb
    · cases hb
    · split at hb <;> cases hb
      simp
  · unfold decbBody at hb
    split at hb <;> cases hb
    simp
  · unfold enccrcBody at hb
    split at hb <;> cases hb
    simp
  · rw [enchamBody_eq] at hb
    split at hb
    · cases hb
    · split at hb <;> cases hb
      simp
  · cases hb; simp
  · rw [noiseBody_eq] at hb
    split at hb <;> cases hb
    simp
  · cases hb; simp

/-- Every command is performed by the one rule of R259. -/
theorem exec_eq_perform (i : Instr) (s : State) : exec i s = .next (perform i (commandBody i) s) := by
  cases i <;> rfl

/-- All that a command can do (R252, R259). -/
theorem exec_cases {i : Instr} {s t : State} (h : exec i s = .next t) :
    (s.fsm = .fault ∧ i ≠ .clr ∧ t = s) ∨
    (seqEntry s.fsm i = true ∧ t = raiseError .sequenceError s) ∨
    (emptyEntry s.fsm i = true ∧ t = raiseError .emptyMessage s) ∨
    (legality i s.fsm = .ok ∧ commandBody i s = .ok t) ∨
    (legality i s.fsm = .ok ∧ ∃ e, commandBody i s = .error e ∧ t = raiseError e s) := by
  rw [exec_eq_perform] at h
  injection h with h
  rcases perform_cases i (commandBody i) s with ⟨hl, hp⟩ | ⟨hl, hp⟩ | ⟨hl, hp⟩ | ⟨hl, u, hb, hp⟩ | ⟨hl, e, hb, hp⟩
  · obtain ⟨hf, hi⟩ := (legality_eq_ign_iff i s.fsm).1 hl
    exact .inl ⟨hf, hi, by rw [← h, hp]⟩
  · exact .inr (.inl ⟨(legality_eq_seq_iff i s.fsm).1 hl, by rw [← h, hp]⟩)
  · exact .inr (.inr (.inl ⟨(legality_eq_empty_iff i s.fsm).1 hl, by rw [← h, hp]⟩))
  · exact .inr (.inr (.inr (.inl ⟨hl, by rw [hb, ← hp, h]⟩)))
  · exact .inr (.inr (.inr (.inr ⟨hl, e, hb, by rw [← h, hp]⟩)))

/-- All that a step can do (R259, R320): nothing presented, a cycle with reset, a cycle without a command, a command, or
a reserved word. -/
theorem step_cases {s t : State} (h : step s = .next t) :
    (s.port = [] ∧ t = s) ∨
    ∃ c rest, s.port = c :: rest ∧
      ((c.rst = true ∧ t = hardReset { s with port := rest }) ∨
       (c.rst = false ∧ c.cmdValid = false ∧ t = { s with port := rest }) ∨
       (c.rst = false ∧ c.cmdValid = true ∧ ∃ i, decode c.cmd = .ok i ∧ exec i { s with port := rest } = .next t) ∨
       (c.rst = false ∧ c.cmdValid = true ∧ (∃ e, decode c.cmd = .error e) ∧
         t = takeReserved { s with port := rest })) := by
  cases hp : s.port with
  | nil => left; simp [step, fetch_nil hp] at h; exact ⟨rfl, h.symm⟩
  | cons c rest =>
    right
    refine ⟨c, rest, rfl, ?_⟩
    cases hr : c.rst with
    | true => simp [step, fetch_reset hp hr] at h; exact .inl ⟨rfl, h.symm⟩
    | false =>
      cases hv : c.cmdValid with
      | false => simp [step, fetch_quiet hp hr hv] at h; exact .inr (.inl ⟨rfl, rfl, h.symm⟩)
      | true =>
        cases hd : decode c.cmd with
        | ok i => simp [step, fetch_word hp hr hv, hd] at h; exact .inr (.inr (.inl ⟨rfl, rfl, i, rfl, h⟩))
        | error e =>
          simp [step, fetch_word hp hr hv, hd] at h
          exact .inr (.inr (.inr ⟨rfl, rfl, ⟨e, rfl⟩, h.symm⟩))

end Sys2Proof.Machine
end

