-- ==== Sys2Proof/Tests/Slice0.lean ====
section
/-! SUPPORT. The model's own tests: ill-formed words, decoded words written out from R91 and R93, the vectors of
spec/95_test_vectors.md (named beside each test), and for every statement with hypotheses a witness that meets them. -/

namespace Sys2Proof.Machine.Test

/-- The `n` bits of the number `v`, written first bit first. -/
def bitsOf (n v : Nat) : Bits := (List.range n).map fun i => v.testBit (n - 1 - i)

/-- The reset state but for `fsm`. -/
def inState (f : Fsm) : State := { State.reset with fsm := f }

/-- A loaded message, with a capacity. -/
def loaded (cap : Option Nat) (M : Bits) : State := { State.reset with fsm := .messageLoaded, M := M, cap := cap }

/-- An encoded frame (the fields the tests do not read stay at their reset values). -/
def framedAs (f : Fsm) (F : Bits) : State := { State.reset with fsm := f, M := [true], F := F, algo := .crc32 }

/-- The state with one word presented in the next cycle. -/
def presenting (s : State) (w : CmdWord) : State := { s with port := [{ rst := false, cmdValid := true, cmd := w }] }

/-- The next state, where there is one. -/
def next (o : Host.Outcome State Fault Refusal) : Option State :=
  match o with
  | .next s => some s
  | .fault _ => none
  | .refused _ => none

/-- One value read from the next state. -/
def read {α : Type} (o : Host.Outcome State Fault Refusal) (f : State → α) : Option α := (next o).map f

/-! ### WellFormed: each check refuses an ill-formed word (B5) -/

theorem test_opcode_check_refuses : opcodeAssigned 0xA000000000#40 = false ∧ wordWellFormed 0xFFFFFFFFFF#40 = false := by
  decide
theorem test_mbz_check_refuses_N : mbzClear 0x0000000001#40 = false ∧ wordWellFormed 0x9000000001#40 = false := by decide
theorem test_mbz_check_refuses_B : mbzClear 0x20000001FF#40 = false ∧ wordWellFormed 0x3000000100#40 = false := by decide
theorem test_mbz_check_refuses_S : mbzClear 0x7100000000#40 = false ∧ wordWellFormed 0x7100000000#40 = false := by decide
theorem test_boundary_words_well_formed : wordWellFormed 0x20000000FF#40 = true ∧ wordWellFormed 0x70FFFFFFFF#40 = true ∧
    wordWellFormed 0x6FFFFFFFFF#40 = true ∧ wordWellFormed 0x8FFFFFFFFF#40 = true := by decide

/-! ### Decode: each command's word, field by field (R91, R93) -/

theorem test_decode_nop : decode (0b0000#4 ++ 0#36) = .ok .nop := by rfl
theorem test_decode_clr : decode (0b0001#4 ++ 0#36) = .ok .clr := by rfl
theorem test_decode_putb : decode (0b0010#4 ++ 0#28 ++ 0b01001000#8) = .ok (.putb 0x48#8) := by rfl
theorem test_decode_putsym : decode (0b0011#4 ++ 0#28 ++ 0b00110001#8) = .ok (.putsym 0x31#8) := by rfl
theorem test_decode_decb : decode (0b0100#4 ++ 0#36) = .ok .decb := by rfl
theorem test_decode_enccrc : decode (0b0101#4 ++ 0#36) = .ok .enccrc := by rfl
theorem test_decode_encham : decode (0b0110#4 ++ 0b1001#4 ++ 0#24 ++ 0b01000000#8) = .ok (.encham 0x900000040#36) := by rfl
theorem test_decode_seed : decode (0b0111#4 ++ 0b0000#4 ++ 0xC0FFEE#24 ++ 0b00000001#8) = .ok (.seed 0xC0FFEE01#32) := by
  rfl
theorem test_decode_noise : decode (0b1000#4 ++ 0b0001#4 ++ 0#24 ++ 0b00000010#8) = .ok (.noise 0x100000002#36) := by rfl
theorem test_decode_frame : decode (0b1001#4 ++ 0#36) = .ok .frame := by rfl
theorem test_decode_reserved : decode 0xA000000000#40 = .error (.reservedOpcode 10) ∧
    decode 0x9000000001#40 = .error (.mustBeZero 9) := ⟨rfl, rfl⟩
theorem test_table_word : decodeTableWord 40 0x2000000048 = some (.putb 0x48#8) ∧
    decodeTableWord 40 0x20000001FF = none := by decide

/-! ### Functions -/

/-- V5, V9, V10, V12. -/
theorem test_crc_short : crc32Compute (bitsOf 8 0xFF) = 0x000000FF#32 ∧ crc32Compute [false] = 0x04C11DB6#32 ∧
    crc32Compute [true] = 0x00000001#32 ∧ crc32Compute (bitsOf 4 0b1011) = 0x130476D3#32 := by decide +kernel
/-- V8, the published check value of G2: the octets `123456789`. -/
theorem test_crc_check_value : crc32Compute (bytesToBits [0x31#8, 0x32#8, 0x33#8, 0x34#8, 0x35#8, 0x36#8, 0x37#8, 0x38#8,
    0x39#8]) = 0xFC891918#32 := by decide +kernel
/-- B2, single steps. -/
theorem test_crc_step : crcStep 0x80000000#32 false = 0x04C11DB7#32 ∧ crcStep 0x80000000#32 true = 0x00000000#32 ∧
    crcStep 0xFFFFFFFF#32 false = 0xFB3EE249#32 ∧ crcStep 0xFFFFFFFF#32 true = 0xFFFFFFFE#32 := by decide
/-- V2, V4. -/
theorem test_octets : bytesToBits [0x80#8, 0x01#8, 0xA5#8] = bitsOf 24 0b100000000000000110100101 ∧
    bitsToBytes (bitsOf 9 0) = none := by decide +kernel
/-- V22 (four of the blocks), V23, V25, V28, V29, V29c. -/
theorem test_blocks : encodeBlock (bitsOf 4 0b1011) = bitsOf 7 0b0110011 ∧ encodeBlock (bitsOf 4 0b0001) = bitsOf 7 0b1101001 ∧
    encodeBlock (bitsOf 4 0b0010) = bitsOf 7 0b0101010 ∧ encodeBlock (bitsOf 4 0b0100) = bitsOf 7 0b1001100 ∧
    encodeBlock [true] = bitsOf 3 0b111 ∧ encodeBlock (bitsOf 2 0b10) = bitsOf 5 0b11100 ∧
    encodeBlock (bitsOf 3 0b101) = bitsOf 6 0b101101 ∧ encodeBlock (bitsOf 8 0b01001000) = bitsOf 12 0b000110011000 ∧
    encodeBlock (bitsOf 11 0b10101010101) = bitsOf 15 0b101101001010101 := by decide +kernel
/-- V20's edges. -/
theorem test_redundancy : [1, 2, 4, 5, 11, 12, 26, 27, 57, 58, 64, 65, 120, 121].map redundancyFor =
    [2, 3, 3, 4, 4, 5, 5, 6, 6, 7, 7, 7, 7, 8] := by decide +kernel
/-- V33 and V37: padded last chunks. -/
theorem test_streams : (encodeStream (bitsOf 16 0x4869) 11).frame = bitsOf 30 0b100110011000011000110011000000 ∧
    (encodeStream (bitsOf 16 0x4869) 5).frame = bitsOf 36 0b000110011100000011101101000111000000 := by decide +kernel
/-- B4, single steps, and the samples from SEED 1. -/
theorem test_lfsr : lfsrStep 0xFFFFFFFF#32 = 0xFB3EE249#32 ∧ lfsrStep 0x40000000#32 = 0x80000000#32 ∧
    lfsrNext 0x00000001#32 = 0x04C11DB7#32 ∧ lfsrNext 0x04C11DB7#32 = 0x490D678D#32 := by decide +kernel
/-- B4, the threshold table, and the illegal thresholds of R103. -/
theorem test_thresholds : thresholdOf 1 1000 = 0x418937 ∧ thresholdOf 1 10 = 0x1999999A ∧ thresholdOf 1 2 = 0x80000000 ∧
    thresholdOf 1 1 = 0x100000000 ∧ noisepThreshold ⟨true, 1, 10⟩ = 0xFFFFFFFFF#36 ∧
    noisepThreshold ⟨false, 11, 10⟩ = 0xFFFFFFFFF#36 := by decide +kernel
/-- The examples of R102, with a comment, and a line that is none. -/
theorem test_assembler : assembleLine ['P', 'U', 'T', 'B', ' ', '\'', 'H', '\'', ' ', ';', 'x'] = some [.putb 0x48#8] ∧
    assembleLine ['E', 'N', 'C', 'H', 'A', 'M', ' ', '6', '4'] = some [.encham 64#36] ∧
    assembleLine ['N', 'O', 'P', '1'] = none := by decide +kernel
/-- P1 as one line, `SENDCRC "Hi", 0`: its six words. -/
theorem test_assembler_sendcrc : assemble [['S', 'E', 'N', 'D', 'C', 'R', 'C', ' ', '\"', 'H', 'i', '\"', ',', ' ', '0']] =
    some [0x1000000000#40, 0x2000000048#40, 0x2000000069#40, 0x5000000000#40, 0x8000000000#40, 0x9000000000#40] := by
  decide +kernel

/-! ### Commands, one step each -/

/-- R253: `NOP` in `Fault`. -/
theorem test_nop_in_fault : next (exec .nop (inState .fault)) = some (inState .fault) := by decide +kernel
/-- P5: `CLR` after InvalidBlockSize gives the reset state. -/
theorem test_clr_after_fault :
    next (exec .clr { inState .fault with err := .invalidBlockSize, M := bitsOf 8 0x48, msgLen := 1 }) =
      some State.reset := by decide +kernel
/-- R254: `lfsr` is kept. -/
theorem test_clr_keeps_lfsr : read (exec .clr { framedAs .framed [true] with lfsr := .lfsr 7#32 }) (·.lfsr) =
    some (.lfsr 7#32) := by decide +kernel
/-- P1, the second `PUTB`. -/
theorem test_putb : read (exec (.putb 0x69#8) { loaded none (bitsOf 8 0x48) with msgLen := 1 })
    (fun s => (s.M, s.msgLen, s.fsm)) = some (bitsOf 16 0x4869, 2, .messageLoaded) := by decide +kernel
/-- R134's example. -/
theorem test_putsym : read (exec (.putsym 0x31#8) State.reset) (fun s => (s.M, s.msgLen, s.fsm)) =
    some ([true], 0, .messageLoaded) := by decide +kernel
theorem test_putsym_invalid : read (exec (.putsym 0x32#8) (loaded none [true])) (fun s => (s.M, s.err, s.fsm)) =
    some ([true], .invalidSymbol, .fault) := by decide +kernel
/-- P7. -/
theorem test_decb : read (exec .decb (loaded none (bitsOf 16 0x4869))) (fun s => (s.B, s.fsm)) =
    some ([0x48#8, 0x69#8], .messageLoaded) := by decide +kernel
/-- P6. -/
theorem test_decb_malformed : read (exec .decb (loaded none (bitsOf 9 0b010010001))) (fun s => (s.B, s.err)) =
    some ([], .malformedInput) := by decide +kernel
/-- P1, V6. -/
theorem test_enccrc : read (exec .enccrc (loaded none (bitsOf 16 0x4869))) (fun s => (s.F, s.crc, s.algo, s.fsm)) =
    some (bitsOf 48 0b010010000110100110111010001010101000001000000100, 0xBA2A8204#32, .crc32, .encoded) := by
  decide +kernel
/-- B6: `CAP = 40`, `16 + 32 > 40`. -/
theorem test_enccrc_capacity : read (exec .enccrc (loaded (some 40) (bitsOf 16 0x4869))) (fun s => (s.F, errCode s.err)) =
    some ([], 8#4) := by decide +kernel
/-- P2, V30. -/
theorem test_encham : read (exec (.encham 4#36) (loaded none (bitsOf 9 0b101100111)))
    (fun s => (s.F, s.k, s.r, s.padBits)) = some (bitsOf 21 0b011001110000111110000, 4#7, 3#3, 3#6) := by decide +kernel
/-- V34, the largest block. -/
theorem test_encham_largest : read (exec (.encham 64#36) (loaded none (bitsOf 16 0x4869)))
    (fun s => (s.F, s.k, s.r, s.padBits)) =
    some (bitsOf 22 0b0100100110000110010010 ++ zeros 49, 64#7, 7#3, 48#6) := by decide +kernel
/-- R227: a zero seed; and `SEED` in `Noised` (B6). -/
theorem test_seed_zero : read (exec (.seed 0#32) { State.reset with lfsr := .lfsr 9#32 }) (·.lfsr) =
    some (.lfsr 0xFFFFFFFF#32) := by decide +kernel
theorem test_seed_late : read (exec (.seed 1#32) (inState .noised)) (fun s => (errCode s.err, s.lfsr)) =
    some (6#4, .lfsr 0xFFFFFFFF#32) := by decide +kernel
/-- P4, V53. -/
theorem test_noise : read (exec (.noise 0x080000000#36) { framedAs .encoded (bitsOf 24 0b000110011000010111001001) with
    lfsr := .lfsr 0xC0FFEE01#32 }) (fun s => (s.F, s.lfsr, s.fsm)) =
    some (bitsOf 24 0b111001001000011111111010, .lfsr 0x4A025CF8#32, .noised) := by decide +kernel
/-- V52: `p = 0.1`. -/
theorem test_noise_tenth : read (exec (.noise 0x01999999A#36) (framedAs .encoded
    (bitsOf 48 0b010010000110100110111010001010101000001000000100))) (fun s => (s.F, s.lfsr)) =
    some (bitsOf 48 0b011010000110100110111000011010101000001000010100, .lfsr 0xB0EF002E#32) := by decide +kernel
/-- P1's last step, and P8's. -/
theorem test_frame : read (exec .frame (framedAs .noised [true])) recValid = some true := by decide +kernel
theorem test_frame_early : read (exec .frame (framedAs .encoded [true])) (fun s => (errCode s.err, s.F)) =
    some (6#4, [true]) := by decide +kernel
/-- B6: a reserved word, outside `Fault` and in it. -/
theorem test_reserved_word : read (step (presenting State.reset 0x20000001FF#40)) (fun s => errCode s.err) = some 7#4 ∧
    read (step (presenting { inState .fault with err := .invalidSymbol } 0xA000000000#40)) (fun s => errCode s.err) =
      some 1#4 := by decide +kernel
/-- R320: reset wins over the word presented with it. -/
theorem test_reset_cycle :
    next (step { framedAs .noised [true] with lfsr := .lfsr 5#32, port := [⟨true, true, 0x2000000048#40⟩] }) =
      some State.reset := by decide +kernel
/-- The placed word is the one the first step after reset performs. -/
theorem test_placed_word : read (step (State.reset.withFetchWord 40 0x2000000048)) (fun s => (s.M, s.port)) =
    some (bitsOf 8 0x48, []) := by decide +kernel
/-- R67, R68: the frame read port, in range and past the end. -/
theorem test_read_ports : (outputs (framedAs .framed [false, true]) 1 0).fBit = some true ∧
    (outputs (framedAs .framed [false, true]) 2 0).fBit = none := by decide

/-- R100's example: the hexadecimal view `BA2A8204`. -/
theorem test_hex_view : hexDigits 0xBA2A8204#32 = [0xB#4, 0xA#4, 0x2#4, 0xA#4, 0x8#4, 0x2#4, 0x0#4, 0x4#4] := by decide
/-- P8's end state: `fsm` 5, `err` 6, `algo` 1 (R21, R28, R280), and no record. -/
theorem test_output_codes : (fsmCode .fault, errCode .sequenceError, algoCode .crc32, fsmCode .framed) =
    (5#3, 6#4, 1#2, 4#3) ∧ recordOf (inState .fault) = none := by decide

/-! ### Witnesses: concrete states and operands that meet the hypotheses of each statement -/

/-- The clauses whose one hypothesis is the state of `fsm`, of every command's statement. -/
theorem test_witness_states (f : Fsm) : (inState f).fsm = f := rfl

theorem test_witness_DecodeEncodeRoundTrip : decode 0x70FFFFFFFF#40 = .ok (.seed 0xFFFFFFFF#32) := by rfl
theorem test_witness_DecodeFollowsOpcodeMap :
    ([0x0000000000#40, 0x1000000000#40, 0x20000000FF#40, 0x30000000FF#40, 0x4000000000#40, 0x5000000000#40,
      0x6FFFFFFFFF#40, 0x70FFFFFFFF#40, 0x8FFFFFFFFF#40, 0x9000000000#40].map
        fun w => (w.toNat / 0x1000000000, w.toNat % 0x1000000000)) =
    [(0, 0), (1, 0), (2, 0xFF), (3, 0xFF), (4, 0), (5, 0), (6, 0xFFFFFFFFF), (7, 0xFFFFFFFF), (8, 0xFFFFFFFFF),
      (9, 0)] := by decide +kernel
theorem test_witness_ReservedWordsRaiseIllegalCommand (w : CmdWord) (hw : w = 0xA000000000#40 ∨ w = 0x2000000100#40 ∨
    w = 0x7100000000#40 ∨ w = 0x9000000001#40) :
    (presenting State.reset w).port = [{ rst := false, cmdValid := true, cmd := w }] ∧ (∃ e, decode w = .error e) ∧
      (presenting State.reset w).fsm ≠ .fault := by
  rcases hw with rfl | rfl | rfl | rfl <;> exact ⟨rfl, ⟨_, rfl⟩, by decide⟩
theorem test_witness_OpcodeRowsAgreeWithDecode : decode 0x6FFFFFFFFF#40 = .ok (.encham 0xFFFFFFFFF#36) ∧
    decode 0x7100000000#40 = .error (.mustBeZero 7) := ⟨rfl, rfl⟩
theorem test_witness_StepRunsDecodedCommand :
    (presenting State.reset 0x9000000000#40).port = [{ rst := false, cmdValid := true, cmd := 0x9000000000#40 }] ∧
      decode 0x9000000000#40 = .ok .frame := ⟨rfl, rfl⟩
theorem test_witness_StepWithoutCommandChangesNothing : State.reset.port = [] ∧
    ({ State.reset with port := [⟨false, false, 0x9000000000#40⟩] } : State).port = [⟨false, false, 0x9000000000#40⟩] :=
  ⟨rfl, rfl⟩
theorem test_witness_ResetCyclePutsResetValues :
    ({ inState .fault with lfsr := .external 3, port := [⟨true, true, 0xFFFFFFFFFF#40⟩] } : State).port =
      [⟨true, true, 0xFFFFFFFFFF#40⟩] ∧
    ({ inState .fault with lfsr := .external 3 } : State).lfsr = .external 3 ∧ State.reset.lfsr = .lfsr 0xFFFFFFFF#32 :=
  ⟨rfl, rfl, rfl⟩
theorem test_witness_ResetAndClearValues : ({ State.reset with lfsr := .external 0 } : State).lfsr = .external 0 := rfl
theorem test_witness_PlacedWordRunsNext : decodeTableWord 40 0x8100000000 = some (.noise 0x100000000#36) := by decide
theorem test_witness_NopChangesNothing : (0x0000000001#40).toNat / 0x1000000000 = 0 ∧ (0x0000000001#40).toNat ≠ 0 := by
  decide

/-- An idle core with a finite capacity: the invariant holds. -/
theorem idle_inv (n : Nat) : Inv { State.reset with cap := some n } where
  errIffFault := by simp
  idleEmpty := by simp
  loadedMessage := by simp
  noEncoderYet := by simp
  frameThere := by simp [hasFrame]
  crcFrame := by simp [hasFrame]
  hammingFrame := by simp [hasFrame]
  lfsrNonzero := by intro v h; cases h; decide
  octetsOfMessage := ⟨[], rfl⟩
  msgLenBound := by simp
  withinCap := by simp [Memory.wf]

/-- A loaded message: the invariant holds. -/
theorem loaded_inv (cap : Option Nat) {M : Bits} (hM : 1 ≤ M.length) (hc : fits cap M.length) : Inv (loaded cap M) where
  errIffFault := by simp [loaded]
  idleEmpty := by simp [loaded]
  loadedMessage := by simpa [loaded] using hM
  noEncoderYet := by simp [loaded]
  frameThere := by simp [loaded, hasFrame]
  crcFrame := by simp [loaded, hasFrame]
  hammingFrame := by simp [loaded, hasFrame]
  lfsrNonzero := by intro v h; cases h; decide
  octetsOfMessage := ⟨M, rfl⟩
  msgLenBound := by simp [loaded]
  withinCap := (memoryWf_iff _).2 ⟨hc, fun _ _ => Nat.zero_le _, fun _ _ => Nat.zero_le _⟩

/-- The clean frame of one bit in a block of `k = 1`. -/
def oneBlock : State :=
  { loaded none [true] with fsm := .encoded, F := [true, true, true], algo := .hamming, k := 1, r := 2 }

/-- A Hamming frame: the invariant holds. -/
theorem oneBlock_inv : Inv oneBlock where
  errIffFault := by decide
  idleEmpty := by decide
  loadedMessage := by decide
  noEncoderYet := by decide
  frameThere := by decide
  crcFrame := by intro _ h; cases h
  hammingFrame := by decide +kernel
  lfsrNonzero := by intro v h; cases h; decide
  octetsOfMessage := ⟨[true], rfl⟩
  msgLenBound := by decide
  withinCap := by decide

/-- V10, framed: one message bit and its CRC, 0x00000001. -/
def crcFramed : State :=
  { loaded none [true] with fsm := .framed, F := true :: bitsOf 32 1, crc := 0x00000001#32, algo := .crc32 }

/-- A finished CRC record: the invariant holds. -/
theorem crcFramed_inv : Inv crcFramed where
  errIffFault := by decide
  idleEmpty := by decide
  loadedMessage := by decide
  noEncoderYet := by decide
  frameThere := by decide
  crcFrame := by decide +kernel
  hammingFrame := by intro _ h; cases h
  lfsrNonzero := by intro v h; cases h; decide
  octetsOfMessage := ⟨[true], rfl⟩
  msgLenBound := by decide
  withinCap := by decide

theorem test_witness_ClrStartsNewRun : Inv { State.reset with cap := some 0 } ∧
    ({ State.reset with cap := some 0 } : State).fsm = .idle ∧
    read (exec .clr (framedAs .framed [true])) (·.fsm) = some .idle ∧
    read (exec .frame (framedAs .framed [true])) (·.fsm) = some .fault := ⟨idle_inv 0, rfl, rfl, rfl⟩
theorem test_witness_PutbAppendsOctet : fits (some 8) (([] : Bits).length + 8) ∧
    ¬ fits (some 8) ((loaded (some 8) [true]).M.length + 8) ∧ fits (some 8) (8 * [0x48#8].length) ∧
    ({ State.reset with cap := some 8, port := presentAll ([0x48#8].map .putb) } : State).port =
      presentAll ([0x48#8].map .putb) ++ [] :=
  ⟨fits_of_le (by decide), not_fits_of_lt (by decide), fits_of_le (by decide), rfl⟩
theorem test_witness_PutsymAppendsSymbol : fits (loaded (some 2) [true]).cap ((loaded (some 2) [true]).M.length + 1) ∧
    ¬ fits (loaded (some 1) [true]).cap ((loaded (some 1) [true]).M.length + 1) ∧ (0x30#8).toNat = 0x30 ∧
    (0x31#8).toNat = 0x31 ∧ (0x2F#8).toNat ≠ 0x30 ∧ (0x2F#8).toNat ≠ 0x31 ∧ (0x32#8).toNat ≠ 0x30 ∧
    (0x32#8).toNat ≠ 0x31 ∧ State.reset.M.length % 8 = 0 ∧
    read (exec (.putsym 0x31#8) State.reset) (fun t => t.M.length % 8) = some 1 :=
  ⟨fits_of_le (by decide), not_fits_of_lt (by decide), rfl, rfl, by decide, by decide, by decide, by decide, rfl, rfl⟩
theorem test_witness_DecbFillsOctetBuffer : (loaded none (bitsOf 8 0)).M.length % 8 = 0 ∧
    (loaded none (bitsOf 9 0)).M.length % 8 ≠ 0 ∧ State.reset.M = [] ∧ fits (some 0) (8 * ([] : List Octet).length) ∧
    ({ State.reset with cap := some 0, port := presentAll [.decb] } : State).port =
      presentAll (([] : List Octet).map .putb ++ [.decb]) ++ [] :=
  ⟨rfl, by decide, rfl, fits_of_le (by decide), rfl⟩
theorem test_witness_EnccrcMakesCrcFrame : fits (loaded (some 40) (bitsOf 8 0)).cap ((bitsOf 8 0).length + 32) ∧
    ¬ fits (loaded (some 40) (bitsOf 9 0)).cap ((bitsOf 9 0).length + 32) :=
  ⟨fits_of_le (by decide), not_fits_of_lt (by decide)⟩
/-- `kop` at 1, 64, 0 and 65; one bit in a block of 64 makes 71 bits, of 1 makes 3. -/
theorem test_witness_EnchamMakesHammingFrame : (1#36).toNat = 1 ∧ (64#36).toNat = 64 ∧ (0#36).toNat = 0 ∧
    65 ≤ (65#36).toNat ∧ fits (some 71) (((1 + (64 - 1 % 64) % 64) / 64) * (64 + redundancyFor 64)) ∧
    ¬ fits (some 2) (((1 + (1 - 1 % 1) % 1) / 1) * (1 + redundancyFor 1)) ∧ Inv (loaded (some 71) [true]) :=
  ⟨rfl, rfl, rfl, by decide, fits_of_le (by decide), not_fits_of_lt (by decide),
    loaded_inv _ (by decide) (fits_of_le (by decide))⟩
theorem test_witness_SeedLoadsGenerator : (inState .encoded).lfsr = .lfsr 0xFFFFFFFF#32 ∧
    ({ inState .encoded with lfsr := .external 1 } : State).lfsr = .external 1 := ⟨rfl, rfl⟩
theorem test_witness_NoisePassesFrameThroughChannel : (0x100000000#36).toNat ≤ 0x100000000 ∧
    0x100000000 < (0x100000001#36).toNat := by decide
theorem test_witness_LegalityTableHolds : seqEntry .framed .frame = true ∧ emptyEntry .idle .enccrc = true ∧
    seqEntry .idle .nop = false ∧ emptyEntry .idle .nop = false ∧ Instr.nop ≠ .clr ∧
    operandErrors .nop State.reset ++ capacityErrors .nop State.reset = [] ∧
    seqEntry .messageLoaded (.encham 65#36) = false ∧ emptyEntry .messageLoaded (.encham 65#36) = false ∧
    operandErrors (.encham 65#36) (loaded (some 2) [true]) ++ capacityErrors (.encham 65#36) (loaded (some 2) [true]) =
      [.invalidBlockSize, .capacityExceeded] := by decide +kernel
theorem test_witness_FsmMovesOnlyAsListed : fsmRow .messageLoaded .enccrc = some .encoded ∧
    read (exec .enccrc (loaded none [true])) (·.fsm) = some .encoded ∧
    read (exec .decb (loaded none [true])) (·.fsm) = some .fault := by decide +kernel
theorem test_witness_FaultEntryIsPrecise : read (step (presenting State.reset 0x9000000000#40)) (·.fsm) = some .fault ∧
    State.reset.fsm ≠ .fault := by decide +kernel
theorem test_witness_FaultStateIgnoresCommands : (presenting (inState .fault) 0xFFFFFFFFFF#40).fsm = .fault ∧
    (presenting (inState .fault) 0xFFFFFFFFFF#40).port = [⟨false, true, 0xFFFFFFFFFF#40⟩] ∧
    decode 0xFFFFFFFFFF#40 = .error (.reservedOpcode 15) := ⟨rfl, rfl, rfl⟩
/-- B6: `ENCHAM 0` in `Idle`; `ENCHAM 65` with `CAP = 40`; nothing wrong with `CLR`. -/
theorem test_witness_FirstHeldErrorWins : heldErrors 0x6000000000#40 State.reset = [.emptyMessage, .invalidBlockSize] ∧
    heldErrors 0x6000000041#40 (loaded (some 40) (bitsOf 16 0x4869)) = [.invalidBlockSize, .capacityExceeded] ∧
    heldErrors 0x1000000000#40 State.reset = [] ∧ heldErrors 0xA000000000#40 State.reset = [.illegalCommand] ∧
    decode 0x1000000000#40 = .ok .clr ∧ decode 0x0000000000#40 = .ok .nop := by
  refine ⟨by decide +kernel, by decide +kernel, by decide +kernel, by decide +kernel, rfl, rfl⟩
theorem test_witness_CommandsRaiseOnlyListedErrors : State.reset.fsm ≠ .fault ∧
    read (exec .frame State.reset) (·.fsm) = some .fault := by decide +kernel
theorem test_witness_EveryStepKeepsInv : Inv oneBlock ∧ Inv (presenting oneBlock 0x8000000000#40) ∧
    read (step (presenting oneBlock 0x8000000000#40)) (·.fsm) = some .noised :=
  ⟨oneBlock_inv, { oneBlock_inv with }, by decide +kernel⟩
theorem test_witness_StepsKeepParameters : read (step State.reset) (·.cap) = some none := by decide +kernel
theorem test_witness_OnlyListedCommandsWriteState : read (exec .enccrc (loaded none [true])) (·.M) = some [true] := by
  decide +kernel
theorem test_witness_BitsToBytesByIndex : (bitsOf 7 0).length % 8 ≠ 0 ∧ (bitsOf 8 0).length % 8 = 0 := by decide
theorem test_witness_BytesToBitsByIndex : (7 : Nat) < 8 := by decide
theorem test_witness_BytesAndBitsRoundTrip : (bitsOf 16 0x4869).length % 8 = 0 := by decide
theorem test_witness_CrcStepAsGates : (1 : Nat) ≤ 31 ∧ (31 : Nat) < 32 := by decide
theorem test_witness_CrcFrameLayout : (loaded none [true]).fsm = .messageLoaded ∧
    read (exec .enccrc (loaded none [true])) (·.fsm) = some .encoded ∧ 0 < (loaded none [true]).M.length := by
  decide +kernel
theorem test_witness_CrcForgetsOldRegister : (loaded (some 33) [true]).fsm = .messageLoaded ∧
    fits (loaded (some 33) [true]).cap ((loaded (some 33) [true]).M.length + 32) := ⟨rfl, fits_of_le (by decide)⟩
theorem test_witness_RedundancyIsSmallest : (1 : Nat) ≤ 1 ∧ 1 < redundancyFor 1 := by decide
theorem test_witness_RedundancyTable : (1 : Nat) ≤ 64 ∧ (64 : Nat) ≤ 64 := by decide
theorem test_witness_DataPositionsSkipPowersOfTwo : (1 : Nat) ≤ 3 ∧ isPow2 3 = false ∧ isPow2 64 = true ∧
    dataPos 1 = 3 ∧ dataPos 64 = 71 := by decide +kernel
theorem test_witness_BlockHasRParityAndKDataPositions : (1 : Nat) ≤ 1 ∧ 1 + redundancyFor 1 = 3 := by decide
theorem test_witness_PlacementPutsDataInOrder : 1 ≤ [true].length ∧ isPow2 2 = true ∧
    2 ≤ [true].length + redundancyFor [true].length := by decide
theorem test_witness_ParityBitsAreXorsOfData : 1 ≤ [true].length ∧ 1 < redundancyFor [true].length ∧
    [1, 0].Perm (List.range (redundancyFor [true].length)) := by
  refine ⟨by decide, by decide, ?_⟩
  exact List.Perm.swap 0 1 []
theorem test_witness_BlockParityEvenAndErrorLocated : 1 ≤ [true].length ∧
    3 ≤ [true].length + redundancyFor [true].length := by decide
theorem test_witness_StreamIsBlocksOfPaddedMessage : (1 : Nat) ≤ 4 ∧ 1 ≤ [true].length ∧ [true].length < 4 ∧
    0 < ([true].length + (encodeStream [true] 4).pad) / 4 ∧ ([] : Bits) = [] := by decide
theorem test_witness_LfsrStepShiftsWithFeedback : (0x80000000#32) ≠ 0x00000000#32 := by decide
theorem test_witness_SeededNoiseRepeats : (framedAs .encoded [true]).fsm = .encoded ∧
    sameSource (framedAs .encoded [true]).lfsr (.lfsr 5#32) ∧
    read (exec (.seed 1#32) (framedAs .encoded [true])) (·.fsm) = some .encoded ∧
    read (exec (.noise 0#36) (framedAs .encoded [true])) (·.fsm) = some .noised := ⟨rfl, trivial, rfl, rfl⟩
theorem test_witness_LfsrHasFullPeriod : (0x00000001#32) ≠ 0x00000000#32 := by decide
theorem test_witness_OutputsAreFunctionsOfState : 0 < (framedAs .framed [true]).F.length ∧
    (framedAs .framed [true]).F.length ≤ 1 ∧ (framedAs .framed [true]).B.length ≤ 0 ∧
    0 < ({ State.reset with B := [0x48#8] } : State).B.length ∧ crcFramed.algo = .crc32 ∧ oneBlock.algo = .hamming ∧
    State.reset.algo = .none ∧ (∀ e : ErrKind, ({ inState .fault with err := e } : State).err = e) :=
  ⟨by decide, by decide, by decide, by decide, rfl, rfl, rfl, fun _ => rfl⟩
theorem test_witness_FramedRecordStays : (presenting (framedAs .framed [true]) 0x0000000000#40).fsm = .framed ∧
    decode 0x0000000000#40 = .ok .nop ∧ decode 0x9000000000#40 = .ok .frame ∧
    read (step (presenting (framedAs .framed [true]) 0x9000000000#40)) (·.fsm) = some .fault ∧
    Inv crcFramed ∧ crcFramed.fsm = .framed ∧ crcFramed.algo = .crc32 :=
  ⟨rfl, rfl, rfl, rfl, crcFramed_inv, rfl, rfl⟩
theorem test_witness_RecordDeterminesBlockSize : Inv oneBlock ∧ hasFrame oneBlock.fsm = true ∧ oneBlock.algo = .hamming :=
  ⟨oneBlock_inv, rfl, rfl⟩
theorem test_witness_DecbReadsMessageByOctets : (loaded none (bitsOf 8 0x48)).fsm = .messageLoaded ∧
    read (exec .decb (loaded none (bitsOf 8 0x48))) (fun t => (t.fsm, t.B[0]?)) = some (.messageLoaded, some 0x48#8) := by
  decide +kernel
/-- One octet, every threshold up to 2^32, block sizes 1 and 64, at a capacity just large enough. -/
theorem test_witness_PipelineMakesRecord : [0x48#8] ≠ [] ∧ (0x100000000#36).toNat ≤ 0x100000000 ∧
    fits (some 40) (8 * [0x48#8].length + 32) ∧ fits (some 71) (8 * [0x48#8].length) ∧
    fits (some 71) (encodeStream (bytesToBits [0x48#8]) 64).frame.length ∧
    fits (some 24) (encodeStream (bytesToBits [0x48#8]) 1).frame.length ∧ 1 ≤ (1#36).toNat ∧ (64#36).toNat ≤ 64 :=
  ⟨by decide, by decide, fits_of_le (by decide), fits_of_le (by decide), fits_of_le (by decide +kernel),
    fits_of_le (by decide +kernel), by decide, by decide⟩
theorem test_witness_ThresholdRoundsProbability : (0 : Nat) < 1 ∧ (1 : Nat) ≤ 1 := by decide
theorem test_witness_NoisepAcceptsExactlyProbabilities : (inState .encoded).fsm = .encoded ∧ 0 < (⟨false, 1, 1⟩ : Fraction).den ∧
    (⟨false, 1, 1⟩ : Fraction).num ≤ 1 ∧ (⟨true, 0, 1⟩ : Fraction).num = 0 ∧ (⟨true, 1, 10⟩ : Fraction).num ≠ 0 ∧
    (⟨false, 11, 10⟩ : Fraction).den < 11 := by decide
/-- A text, a fraction, and `SENDCRC` and `SENDHAM` of an empty text presented to a core in `Framed`. -/
theorem test_witness_RenderedLineAssembles : (∀ c ∈ ['H', ';', '~'], c.toNat < 128 ∧ c ≠ '\"') ∧
    readFraction ['0', '.', '5'] = some (⟨false, 5, 10⟩, []) ∧
    ({ crcFramed with port := presentAll (expandSendcrc [] ⟨false, 0, 1⟩) } : State).port =
      presentAll (expandSendcrc [] ⟨false, 0, 1⟩) ++ [] ∧
    ({ crcFramed with port := presentAll (expandSendham [] 4#36 ⟨false, 0, 1⟩) } : State).port =
      presentAll (expandSendham [] 4#36 ⟨false, 0, 1⟩) ++ [] ∧
    read (Sys2Proof.core.run 4 { crcFramed with port := presentAll (expandSendham [] 0#36 ⟨false, 0, 1⟩) })
      (fun s => (s.fsm, s.err)) = some (.fault, .emptyMessage) :=
  ⟨by simp, by decide +kernel, rfl, rfl, by decide +kernel⟩

end Sys2Proof.Machine.Test
end

section
/-! PROOFS of `spec/00_scope.md` (R6). The parameters of the core are `CAP` and the instance of the random source. Only
reset, `SEED` and `NOISE` write `lfsr`, each by an operation of the instance the core has; nothing writes `cap`. -/

namespace Sys2Proof.Machine

/-! ### The instance of the random source (R221) -/

@[refl] theorem sameSource_refl (g : RngState) : sameSource g g := by
  cases g <;> trivial

theorem sameSource_trans {g h i : RngState} (hgh : sameSource g h) (hhi : sameSource h i) : sameSource g i := by
  cases g <;> cases h <;> cases i <;> trivial

theorem sameSource_rngReset (g : RngState) : sameSource g (rngReset g) := by
  cases g <;> trivial

theorem sameSource_rngSeed (g : RngState) (seed : Word32) : sameSource g (rngSeed g seed) := by
  cases g <;> trivial

theorem sameSource_rngNext (g : RngState) : sameSource g (rngNext g).1 := by
  cases g <;> trivial

/-- The channel only draws samples (R222), so it hands back the instance it was given. -/
theorem sameSource_bscApply (T : Operand36) (X : Bits) (g : RngState) :
    sameSource g (bscApply rngNext T X g).2 := by
  induction X generalizing g with
  | nil => exact sameSource_refl g
  | cons b X ih =>
    rw [bscApply_cons]
    exact sameSource_trans (sameSource_rngNext g) (ih (rngNext g).1)

/-! ### The parameters of two states -/

/-- `t` has the parameters of `s`: the same `CAP` and the same instance of the random source (R6). -/
def SameParameters (s t : State) : Prop := t.cap = s.cap ∧ sameSource s.lfsr t.lfsr

/-- The parameters stand in `cap` and `lfsr` alone, so writing any other field keeps them. -/
theorem sameParameters_of_fields_eq {s t : State} (hcap : t.cap = s.cap) (hlfsr : t.lfsr = s.lfsr) :
    SameParameters s t := ⟨hcap, hlfsr ▸ sameSource_refl s.lfsr⟩

theorem raiseError_sameParameters (e : ErrKind) (s : State) : SameParameters s (raiseError e s) :=
  sameParameters_of_fields_eq (raiseError_cap e s) (raiseError_lfsr e s)

theorem hardReset_sameParameters (s : State) : SameParameters s (hardReset s) :=
  ⟨hardReset_cap s, hardReset_lfsr s ▸ sameSource_rngReset s.lfsr⟩

theorem takeReserved_sameParameters (s : State) : SameParameters s (takeReserved s) := by
  obtain ⟨-, ht⟩ | ⟨-, ht⟩ := takeReserved_cases s
  · exact sameParameters_of_fields_eq (congrArg State.cap ht) (congrArg State.lfsr ht)
  · exact ht ▸ raiseError_sameParameters .illegalCommand s

/-! ### What a command and a step do to them -/

theorem seedBody_lfsr {seed : Word32} {s t : State} (hb : seedBody seed s = .ok t) :
    t.lfsr = rngSeed s.lfsr seed := by
  cases hb; rfl

theorem noiseBody_lfsr {T : Operand36} {s t : State} (hb : noiseBody T s = .ok t) :
    t.lfsr = (bscApply rngNext T s.F s.lfsr).2 := by
  rw [noiseBody_eq] at hb
  split at hb
  · cases hb
  · cases hb; rfl

/-- A command leaves `lfsr` alone or is `SEED` or `NOISE`, which stay with the instance they find. -/
theorem commandBody_sameParameters {i : Instr} {s t : State} (hb : commandBody i s = .ok t) :
    SameParameters s t := by
  obtain ⟨-, hcap, -, -, -, -, -, -, -, hlfsr, -⟩ := commandBody_ok hb
  obtain hkept | ⟨seed, rfl⟩ | ⟨T, rfl⟩ := hlfsr
  · exact sameParameters_of_fields_eq hcap hkept
  · exact ⟨hcap, seedBody_lfsr hb ▸ sameSource_rngSeed s.lfsr seed⟩
  · exact ⟨hcap, noiseBody_lfsr hb ▸ sameSource_bscApply T s.F s.lfsr⟩

theorem exec_sameParameters {i : Instr} {s t : State} (h : exec i s = .next t) : SameParameters s t := by
  obtain ⟨-, -, rfl⟩ | ⟨-, rfl⟩ | ⟨-, rfl⟩ | ⟨-, hb⟩ | ⟨-, e, -, rfl⟩ := exec_cases h
  · exact sameParameters_of_fields_eq rfl rfl
  · exact raiseError_sameParameters .sequenceError s
  · exact raiseError_sameParameters .emptyMessage s
  · exact commandBody_sameParameters hb
  · exact raiseError_sameParameters e s

/-- Taking a cycle off the port writes neither `cap` nor `lfsr`, so what is performed on the state with the remaining
port keeps the parameters of the state before the step. -/
theorem step_sameParameters {s t : State} (h : step s = .next t) : SameParameters s t := by
  obtain ⟨-, rfl⟩ | ⟨c, rest, -, ⟨-, rfl⟩ | ⟨-, -, rfl⟩ | ⟨-, -, i, -, he⟩ | ⟨-, -, -, rfl⟩⟩ := step_cases h
  · exact sameParameters_of_fields_eq rfl rfl
  · exact hardReset_sameParameters { s with port := rest }
  · exact sameParameters_of_fields_eq rfl rfl
  · exact (exec_sameParameters he : SameParameters { s with port := rest } t)
  · exact takeReserved_sameParameters { s with port := rest }

/-- Settles O30: `step_sameParameters`, by the cases of a step and of a command. -/
theorem stepsKeepParameters : Obligations.StepsKeepParameters :=
  fun _ _ h => step_sameParameters h

end Sys2Proof.Machine
end

section
/-! PROOFS of `spec/10_state.md`: the values after reset and `CLR` (R35), the outputs (R34, with R67, R68 and R100) and
the invariants of R37 and R70.

The invariant is kept because a message is only ever appended to, a frame is written whole by an encoder and then only
passed on at its length, and the steps that leave this path are the clear and the taking of an error. -/

namespace Sys2Proof.Machine

/-! ### BitConverter: octets back to bits (R132) -/

theorem octetBits_octetOf {X : Bits} (h : X.length = 8) : octetBits (octetOf X) = X := by
  have all_octets : ∀ b₇ b₆ b₅ b₄ b₃ b₂ b₁ b₀ : Bit,
      octetBits (octetOf [b₇, b₆, b₅, b₄, b₃, b₂, b₁, b₀]) = [b₇, b₆, b₅, b₄, b₃, b₂, b₁, b₀] := by decide
  match X, h with
  | [b₇, b₆, b₅, b₄, b₃, b₂, b₁, b₀], _ => exact all_octets b₇ b₆ b₅ b₄ b₃ b₂ b₁ b₀

theorem bytesToBits_octetGroups {n : Nat} {X : Bits} (h : X.length = 8 * n) : bytesToBits (octetGroups n X) = X := by
  induction n generalizing X with
  | zero => rw [List.eq_nil_of_length_eq_zero h]; rfl
  | succ n ih =>
    have hfirst : (X.take 8).length = 8 := by rw [List.length_take]; omega
    have hrest : (X.drop 8).length = 8 * n := by rw [List.length_drop]; omega
    rw [octetGroups, bytesToBits_cons, octetBits_octetOf hfirst, ih hrest, List.take_append_drop]

theorem bytesToBits_of_bitsToBytes {X : Bits} {y : List Octet} (h : bitsToBytes X = some y) : bytesToBits y = X := by
  by_cases hX : X.length % 8 = 0
  · rw [bitsToBytes_eq_some hX] at h
    cases h
    exact bytesToBits_octetGroups (by omega)
  · rw [bitsToBytes_eq_none hX] at h
    cases h

/-! ### Hamming: the sizes of a frame (R180, R190) -/

/-- The search of R180 does not pass a number of parity bits that is enough. -/
theorem redundancySearch_le {k m : Nat} (hm : k + m + 1 ≤ 2 ^ m) (fuel : Nat) {r : Nat} (hr : r ≤ m) :
    redundancySearch k fuel r ≤ m := by
  induction fuel generalizing r with
  | zero => exact hr
  | succ fuel ih =>
    rw [redundancySearch]
    split
    · next htooFew =>
      have hne : r ≠ m := by rintro rfl; omega
      exact ih (by omega)
    · exact hr

theorem redundancyFor_le_of_enough {k m : Nat} (hm : k + m + 1 ≤ 2 ^ m) : redundancyFor k ≤ m :=
  redundancySearch_le hm (k + 1) (Nat.zero_le m)

/-- The parity bits of every legal block size can be counted in the 3-bit register `r` (R30). -/
theorem redundancyFor_le_seven {k : Nat} (hk : k ≤ 64) : redundancyFor k ≤ 7 :=
  redundancyFor_le_of_enough (by omega)

theorem padFor_lt {k : Nat} (hk : 1 ≤ k) (len : Nat) : padFor len k < k := Nat.mod_lt _ hk

theorem dvd_add_padFor {k : Nat} (hk : 1 ≤ k) (len : Nat) : k ∣ len + padFor len k := by
  have hrem : len % k < k := Nat.mod_lt len hk
  apply Nat.dvd_of_mod_eq_zero
  calc (len + (k - len % k) % k) % k
      = (len % k + (k - len % k)) % k := by simp
    _ = k % k := by rw [Nat.add_sub_cancel' hrem.le]
    _ = 0 := Nat.mod_self k

theorem encodeChunks_length {k nb : Nat} {X : Bits} (h : nb * k ≤ X.length) :
    (encodeChunks k nb X).length = nb * (k + redundancyFor k) := by
  induction nb generalizing X with
  | zero => simp [encodeChunks]
  | succ nb ih =>
    rw [Nat.succ_mul] at h
    have hblock : (X.take k).length = k := by rw [List.length_take]; omega
    have hrest : nb * k ≤ (X.drop k).length := by rw [List.length_drop]; omega
    rw [encodeChunks, List.length_append, encodeBlock_length, hblock, ih hrest, Nat.succ_mul, Nat.add_comm]

theorem encodeStream_frame_length (X : Bits) (k : Nat) :
    (encodeStream X k).frame.length = ((X.length + padFor X.length k) / k) * (k + redundancyFor k) := by
  have hlen : (X ++ zeros (padFor X.length k)).length = X.length + padFor X.length k := by simp
  rw [← hlen]
  exact encodeChunks_length (Nat.div_mul_le_self _ k)

/-- A message that is not empty fills at least one block. -/
theorem encodeStream_frame_pos {X : Bits} {k : Nat} (hk : 1 ≤ k) (hX : 1 ≤ X.length) :
    1 ≤ (encodeStream X k).frame.length := by
  have hblocks : 0 < (X.length + padFor X.length k) / k :=
    Nat.div_pos (Nat.le_of_dvd (by omega) (dvd_add_padFor hk X.length)) hk
  rw [encodeStream_frame_length]
  exact Nat.mul_pos hblocks (by omega)

/-! ### Noise channel: the length of a frame (R222) and the default generator's zero (R37 (f)) -/

theorem bscApply_length {σ : Type} (next : σ → σ × Word32) (T : Operand36) (X : Bits) (g : σ) :
    (bscApply next T X g).1.length = X.length := by
  induction X generalizing g with
  | nil => rfl
  | cons b X ih => rw [bscApply_cons, List.length_cons, List.length_cons, ih]

/-- The polynomial has bit 0, which the shift leaves clear: with feedback the next register has bit 0, and without it
the shift loses nothing. -/
theorem lfsrStep_ne_zero {v : Word32} (hv : v ≠ 0x00000000#32) : lfsrStep v ≠ 0x00000000#32 := by
  intro hzero
  unfold lfsrStep at hzero
  split at hzero
  · have hbit := congrArg (BitVec.getLsbD · 0) hzero
    simp at hbit
  · next hmsb =>
    have hsmall : v.toNat < 2 ^ 31 := by
      rw [← BitVec.msb_eq_getLsbD_last v (w := 32)] at hmsb
      exact BitVec.toNat_lt_of_msb_false (by simpa using hmsb)
    have hshift := congrArg BitVec.toNat hzero
    rw [BitVec.toNat_shiftLeft, Nat.shiftLeft_eq] at hshift
    exact hv (BitVec.eq_of_toNat_eq (by simp at hshift ⊢; omega))

theorem lfsrSteps_ne_zero (n : Nat) {v : Word32} (hv : v ≠ 0x00000000#32) : lfsrSteps n v ≠ 0x00000000#32 := by
  induction n generalizing v with
  | zero => exact hv
  | succ n ih => exact ih (lfsrStep_ne_zero hv)

theorem lfsrSeed_ne_zero (seed : Word32) : lfsrSeed seed ≠ 0x00000000#32 := by
  unfold lfsrSeed
  split
  · decide
  · assumption

/-- R37 (f): the default register is not zero; of the open source nothing is said. -/
def NonzeroLfsr (g : RngState) : Prop := ∀ v, g = .lfsr v → v ≠ 0x00000000#32

@[simp] theorem nonzeroLfsr_lfsr (v : Word32) : NonzeroLfsr (.lfsr v) ↔ v ≠ 0x00000000#32 := by
  simp [NonzeroLfsr]

@[simp] theorem nonzeroLfsr_external (n : Nat) : NonzeroLfsr (.external n) := by
  intro v h; cases h

theorem nonzeroLfsr_rngReset (g : RngState) : NonzeroLfsr (rngReset g) := by
  cases g <;> simp [rngReset, lfsrReset]

theorem nonzeroLfsr_rngSeed (g : RngState) (seed : Word32) : NonzeroLfsr (rngSeed g seed) := by
  cases g with
  | lfsr v => exact (nonzeroLfsr_lfsr _).2 (lfsrSeed_ne_zero seed)
  | external n => exact nonzeroLfsr_external _

theorem nonzeroLfsr_rngNext {g : RngState} (hg : NonzeroLfsr g) : NonzeroLfsr (rngNext g).1 := by
  cases g with
  | lfsr v => exact (nonzeroLfsr_lfsr _).2 (lfsrSteps_ne_zero 32 ((nonzeroLfsr_lfsr v).1 hg))
  | external n => exact nonzeroLfsr_external _

theorem nonzeroLfsr_bscApply (T : Operand36) (X : Bits) {g : RngState} (hg : NonzeroLfsr g) :
    NonzeroLfsr (bscApply rngNext T X g).2 := by
  induction X generalizing g with
  | nil => exact hg
  | cons b X ih =>
    rw [bscApply_cons]
    exact ih (nonzeroLfsr_rngNext hg)

/-! ### The states in which a command is performed (R252) -/

theorem legality_putb_eq_ok_iff (b : Octet) (f : Fsm) : legality (.putb b) f = .ok ↔ loading f = true := by
  cases f <;> simp [legality, loading]

theorem legality_putsym_eq_ok_iff (b : Octet) (f : Fsm) : legality (.putsym b) f = .ok ↔ loading f = true := by
  cases f <;> simp [legality, loading]

theorem legality_enccrc_eq_ok_iff (f : Fsm) : legality .enccrc f = .ok ↔ f = .messageLoaded := by
  cases f <;> simp [legality]

theorem legality_encham_eq_ok_iff (kop : Operand36) (f : Fsm) :
    legality (.encham kop) f = .ok ↔ f = .messageLoaded := by
  cases f <;> simp [legality]

theorem legality_noise_eq_ok_iff (T : Operand36) (f : Fsm) : legality (.noise T) f = .ok ↔ f = .encoded := by
  cases f <;> simp [legality]

theorem legality_frame_eq_ok_iff (f : Fsm) : legality .frame f = .ok ↔ f = .noised := by
  cases f <;> simp [legality]

theorem loading_iff (f : Fsm) : loading f = true ↔ f = .idle ∨ f = .messageLoaded := by
  cases f <;> simp [loading]

/-! ### The clear, reset and errors keep the invariant (R35, R254, R290) -/

/-- Nothing is left to say of a cleared state but that its generator is sound. -/
theorem inv_clearRun {s : State} (hg : NonzeroLfsr s.lfsr) : Inv (clearRun s) where
  errIffFault := by simp
  idleEmpty := by simp
  loadedMessage := by simp
  noEncoderYet := by simp
  frameThere := by simp [hasFrame]
  crcFrame := by simp [hasFrame]
  hammingFrame := by simp [hasFrame]
  lfsrNonzero := hg
  octetsOfMessage := ⟨[], rfl⟩
  msgLenBound := by simp
  withinCap := wf_clearRun s

/-- A hardware reset is a clear that resets the generator too. -/
theorem hardReset_eq_clearRun (s : State) : hardReset s = clearRun { s with lfsr := rngReset s.lfsr } := rfl

theorem inv_hardReset (s : State) : Inv (hardReset s) := by
  rw [hardReset_eq_clearRun]
  exact inv_clearRun (nonzeroLfsr_rngReset s.lfsr)

/-- R290: `Fault` is entered with the buffers and the generator as they are, and R37 (b) to (e) say nothing of it. -/
theorem inv_raiseError {s : State} {e : ErrKind} (hi : Inv s) (he : e ≠ .noError) : Inv (raiseError e s) where
  errIffFault := by simpa using he
  idleEmpty := by simp
  loadedMessage := by simp
  noEncoderYet := by simp [loading]
  frameThere := by simp [hasFrame]
  crcFrame := by simp [hasFrame]
  hammingFrame := by simp [hasFrame]
  lfsrNonzero := hi.lfsrNonzero
  octetsOfMessage := hi.octetsOfMessage
  msgLenBound := hi.msgLenBound
  withinCap := wf_raiseError e hi.withinCap

theorem inv_takeReserved {s : State} (hi : Inv s) : Inv (takeReserved s) := by
  obtain ⟨-, ht⟩ | ⟨-, ht⟩ := takeReserved_cases s
  · rw [ht]; exact hi
  · rw [ht]; exact inv_raiseError hi (by decide)

/-- The invariant says nothing of what the host has still to present. -/
theorem inv_withPort {s : State} (hi : Inv s) (rest : List PortCycle) : Inv { s with port := rest } :=
  { hi with }

/-! ### Loading a message keeps the invariant (R133 to R135) -/

theorem inv_err_of_ne_fault {s : State} (hi : Inv s) (hf : s.fsm ≠ .fault) : s.err = .noError :=
  hi.errIffFault.2 hf

/-- While a message is loaded there is no frame (R37 (b)). -/
theorem inv_noFrame_of_loading {s : State} (hi : Inv s) (hl : loading s.fsm = true) : s.F = [] ∧ s.algo = .none := by
  obtain hidle | hloaded := (loading_iff s.fsm).1 hl
  · obtain ⟨-, -, hF, -, halgo⟩ := hi.idleEmpty hidle
    exact ⟨hF, halgo⟩
  · obtain ⟨-, hF, halgo⟩ := hi.loadedMessage hloaded
    exact ⟨hF, halgo⟩

/-- Appending some bits, at least 8 for every octet counted: what `PUTB` and `PUTSYM` have in common. -/
theorem inv_appendMessage {s : State} (hi : Inv s) (hl : loading s.fsm = true) {v : Bits} {octets : Nat}
    (hv : 1 ≤ v.length) (hoctets : 8 * octets ≤ v.length)
    (hcap : exceedsCap s.cap (s.M.length + v.length) = false) :
    Inv { s with M := memAppend s.M v, msgLen := s.msgLen + octets, fsm := .messageLoaded } where
  errIffFault := by
    have herr := inv_err_of_ne_fault hi (by rintro h; simp [h, loading] at hl)
    simpa using herr
  idleEmpty := by simp
  loadedMessage := by
    obtain ⟨hF, halgo⟩ := inv_noFrame_of_loading hi hl
    exact fun _ => ⟨by simp [memAppend]; omega, hF, halgo⟩
  noEncoderYet := fun _ => hi.noEncoderYet hl
  frameThere := by simp [hasFrame]
  crcFrame := by simp [hasFrame]
  hammingFrame := by simp [hasFrame]
  lfsrNonzero := hi.lfsrNonzero
  octetsOfMessage := by
    obtain ⟨rest, hM⟩ := hi.octetsOfMessage
    exact ⟨rest ++ v, by rw [← List.append_assoc, ← hM]; rfl⟩
  msgLenBound := by
    have hbound := hi.msgLenBound
    simp only [memAppend, List.length_append]
    omega
  withinCap := wf_writeM hi.withinCap rfl rfl rfl (by simpa [memAppend] using hcap)

theorem putbBody_inv {b : Octet} {s t : State} (hi : Inv s) (hl : loading s.fsm = true)
    (hb : putbBody b s = .ok t) : Inv t := by
  unfold putbBody at hb
  split at hb
  · cases hb
  · next hcap =>
    cases hb
    exact inv_appendMessage (octets := 1) hi hl (by simp) (by simp) (by simpa using hcap)

theorem putsymBody_inv {b : Octet} {s t : State} (hi : Inv s) (hl : loading s.fsm = true)
    (hb : putsymBody b s = .ok t) : Inv t := by
  unfold putsymBody at hb
  split at hb
  · cases hb
  · split at hb
    · cases hb
    · next hcap =>
      cases hb
      exact inv_appendMessage (octets := 0) hi hl (by simp) (by simp) (by simpa using hcap)

/-- `DECB` writes only `B`, and to the octets of the whole of `M` (R135). -/
theorem decbBody_inv {s t : State} (hi : Inv s) (hb : decbBody s = .ok t) : Inv t := by
  have hwf := decbBody_wf hi.withinCap hb
  unfold decbBody at hb
  split at hb
  · cases hb
  · next octets hoctets =>
    cases hb
    have hM : bytesToBits octets = s.M := bytesToBits_of_bitsToBytes hoctets
    refine { hi with idleEmpty := ?_, octetsOfMessage := ⟨[], by simp [hM]⟩, withinCap := hwf }
    intro hidle
    obtain ⟨hnil, hlen, hF, -, halgo⟩ := hi.idleEmpty hidle
    have hnone : octets = [] := List.eq_nil_of_length_eq_zero (by
      have := congrArg List.length (hM.trans hnil)
      simpa using this)
    exact ⟨hnil, hlen, hF, hnone, halgo⟩

/-! ### Encoding a message keeps the invariant (R159, R193) -/

theorem enccrcBody_inv {s t : State} (hi : Inv s) (hs : s.fsm = .messageLoaded) (hb : enccrcBody s = .ok t) :
    Inv t := by
  have hwf := enccrcBody_wf hi.withinCap hb
  obtain ⟨hM, -, -⟩ := hi.loadedMessage hs
  unfold enccrcBody at hb
  split at hb
  · cases hb
  · cases hb
    exact {
      errIffFault := by simp [inv_err_of_ne_fault hi (by simp [hs])]
      idleEmpty := by simp
      loadedMessage := by simp
      noEncoderYet := by simp [loading]
      frameThere := fun _ => ⟨.inl rfl, hM, by simp⟩
      crcFrame := fun _ _ => ⟨rfl, by simp, rfl, rfl, rfl, fun _ => rfl⟩
      hammingFrame := by simp
      lfsrNonzero := hi.lfsrNonzero
      octetsOfMessage := hi.octetsOfMessage
      msgLenBound := hi.msgLenBound
      withinCap := hwf }

/-- The values of an accepted operand's frame fit the registers they are kept in (R29 to R31). -/
theorem hamming_registers_fit {k : Nat} (hk : 1 ≤ k) (hk' : k ≤ 64) (len : Nat) :
    (BitVec.ofNat 7 k).toNat = k ∧ (BitVec.ofNat 3 (redundancyFor k)).toNat = redundancyFor k ∧
      (BitVec.ofNat 6 (padFor len k)).toNat = padFor len k := by
  have hr := redundancyFor_le_seven hk'
  have hpad := padFor_lt hk len
  simp only [BitVec.toNat_ofNat]
  refine ⟨Nat.mod_eq_of_lt ?_, Nat.mod_eq_of_lt ?_, Nat.mod_eq_of_lt ?_⟩ <;> omega

theorem enchamBody_inv {kop : Operand36} {s t : State} (hi : Inv s) (hs : s.fsm = .messageLoaded)
    (hb : enchamBody kop s = .ok t) : Inv t := by
  have hwf := enchamBody_wf hi.withinCap hb
  obtain ⟨hM, -, -⟩ := hi.loadedMessage hs
  obtain ⟨hcrc, -, -, -⟩ := hi.noEncoderYet (by simp [hs, loading])
  rw [enchamBody_eq] at hb
  split at hb
  · cases hb
  · next hkop =>
    have hk : 1 ≤ kop.toNat := by omega
    have hk' : kop.toNat ≤ 64 := by omega
    obtain ⟨hkreg, hrreg, hpadreg⟩ := hamming_registers_fit hk hk' s.M.length
    split at hb
    · cases hb
    · cases hb
      exact {
        errIffFault := by simp [inv_err_of_ne_fault hi (by simp [hs])]
        idleEmpty := by simp
        loadedMessage := by simp
        noEncoderYet := by simp [loading]
        frameThere := fun _ => ⟨.inr rfl, hM, encodeStream_frame_pos hk hM⟩
        crcFrame := by simp
        hammingFrame := fun _ _ => by
          simp only [hkreg, hrreg, hpadreg]
          exact ⟨hk, hk', trivial, rfl, encodeStream_frame_length s.M kop.toNat, hcrc, fun _ => trivial⟩
        lfsrNonzero := hi.lfsrNonzero
        octetsOfMessage := hi.octetsOfMessage
        msgLenBound := hi.msgLenBound
        withinCap := hwf }

/-! ### Passing a frame on keeps the invariant (R228, R255) -/

/-- A frame passed on at its length; it is no longer the clean one, so nothing is said of its bits. -/
theorem inv_passFrame {s : State} (hi : Inv s) (hs : hasFrame s.fsm = true) {F : Bits} {g : RngState} {f : Fsm}
    (hF : F.length = s.F.length) (hg : NonzeroLfsr g) (hf : f = .noised ∨ f = .framed) :
    Inv { s with F := F, lfsr := g, fsm := f } := by
  have hnofault : s.fsm ≠ .fault := by rintro h; simp [h, hasFrame] at hs
  have hnoisy : f ≠ .encoded := by rintro rfl; simp at hf
  have hfits := ((memoryWf_iff s).1 hi.withinCap).2.1
  exact {
    errIffFault := by
      have herr := inv_err_of_ne_fault hi hnofault
      obtain rfl | rfl := hf <;> simpa using herr
    idleEmpty := by obtain rfl | rfl := hf <;> simp
    loadedMessage := by obtain rfl | rfl := hf <;> simp
    noEncoderYet := by obtain rfl | rfl := hf <;> simp [loading]
    frameThere := fun _ => by simpa [hF] using hi.frameThere hs
    crcFrame := fun _ halgo => by
      obtain ⟨hcrc, hlen, hk, hr, hpad, -⟩ := hi.crcFrame hs halgo
      exact ⟨hcrc, hF.trans hlen, hk, hr, hpad, fun h => absurd h hnoisy⟩
    hammingFrame := fun _ halgo => by
      obtain ⟨hk, hk', hr, hpad, hlen, hcrc, -⟩ := hi.hammingFrame hs halgo
      exact ⟨hk, hk', hr, hpad, hF.trans hlen, hcrc, fun h => absurd h hnoisy⟩
    lfsrNonzero := hg
    octetsOfMessage := hi.octetsOfMessage
    msgLenBound := hi.msgLenBound
    withinCap := wf_writeF hi.withinCap rfl rfl rfl
      ((exceedsCap_eq_false_iff _ _).2 (by simpa only [hF] using hfits)) }

theorem noiseBody_inv {T : Operand36} {s t : State} (hi : Inv s) (hs : s.fsm = .encoded)
    (hb : noiseBody T s = .ok t) : Inv t := by
  rw [noiseBody_eq] at hb
  split at hb
  · cases hb
  · cases hb
    exact inv_passFrame hi (by simp [hs, hasFrame]) (bscApply_length rngNext T s.F s.lfsr)
      (nonzeroLfsr_bscApply T s.F hi.lfsrNonzero) (.inl rfl)

theorem frameBody_inv {s t : State} (hi : Inv s) (hs : s.fsm = .noised) (hb : frameBody s = .ok t) : Inv t := by
  cases hb
  exact inv_passFrame (F := s.F) (g := s.lfsr) hi (by simp [hs, hasFrame]) rfl hi.lfsrNonzero (.inr rfl)

/-! ### Commands and steps keep the invariant -/

theorem seedBody_inv {seed : Word32} {s t : State} (hi : Inv s) (hb : seedBody seed s = .ok t) : Inv t := by
  cases hb
  exact { hi with lfsrNonzero := nonzeroLfsr_rngSeed s.lfsr seed }

theorem commandBody_inv {i : Instr} {s t : State} (hi : Inv s) (hl : legality i s.fsm = .ok)
    (hb : commandBody i s = .ok t) : Inv t := by
  cases i with
  | nop => cases hb; exact hi
  | clr => cases hb; exact inv_clearRun hi.lfsrNonzero
  | putb b => exact putbBody_inv hi ((legality_putb_eq_ok_iff b s.fsm).1 hl) hb
  | putsym b => exact putsymBody_inv hi ((legality_putsym_eq_ok_iff b s.fsm).1 hl) hb
  | decb => exact decbBody_inv hi hb
  | enccrc => exact enccrcBody_inv hi ((legality_enccrc_eq_ok_iff s.fsm).1 hl) hb
  | encham kop => exact enchamBody_inv hi ((legality_encham_eq_ok_iff kop s.fsm).1 hl) hb
  | seed seed => exact seedBody_inv hi hb
  | noise T => exact noiseBody_inv hi ((legality_noise_eq_ok_iff T s.fsm).1 hl) hb
  | frame => exact frameBody_inv hi ((legality_frame_eq_ok_iff s.fsm).1 hl) hb

/-- What a command raises is one of the errors of R280, never the code 0. -/
theorem commandBody_error_ne_noError {i : Instr} {s : State} {e : ErrKind} (hb : commandBody i s = .error e) :
    e ≠ .noError := by
  obtain ⟨rfl, -⟩ | ⟨rfl, -⟩ | ⟨rfl, -⟩ | ⟨rfl, -⟩ | ⟨rfl, -⟩ := commandBody_error hb <;> decide

theorem exec_inv {i : Instr} {s t : State} (hi : Inv s) (h : exec i s = .next t) : Inv t := by
  obtain ⟨-, -, rfl⟩ | ⟨-, rfl⟩ | ⟨-, rfl⟩ | ⟨hl, hb⟩ | ⟨-, e, hb, rfl⟩ := exec_cases h
  · exact hi
  · exact inv_raiseError hi (by decide)
  · exact inv_raiseError hi (by decide)
  · exact commandBody_inv hi hl hb
  · exact inv_raiseError hi (commandBody_error_ne_noError hb)

theorem step_inv {s t : State} (hi : Inv s) (h : step s = .next t) : Inv t := by
  obtain ⟨-, rfl⟩ | ⟨c, rest, -, ⟨-, rfl⟩ | ⟨-, -, rfl⟩ | ⟨-, -, i, -, he⟩ | ⟨-, -, -, rfl⟩⟩ := step_cases h
  · exact hi
  · exact inv_hardReset _
  · exact inv_withPort hi rest
  · exact exec_inv (inv_withPort hi rest) he
  · exact inv_takeReserved (inv_withPort hi rest)

/-- Settles O29: `step_inv`, by the cases of a step and of a command. -/
theorem everyStepKeepsInv : Obligations.EveryStepKeepsInv :=
  fun _ _ hi h => step_inv hi h

/-- Settles O28: the state after reset is a cleared one, with the generator at its reset value. -/
theorem invHoldsAfterReset : Obligations.InvHoldsAfterReset :=
  inv_hardReset State.reset

/-! ### The values after reset and `CLR` (R35) -/

theorem exec_clr (s : State) : exec .clr s = .next (clearRun s) := rfl

/-- Settles O10: the field lemmas of the two states, and the outputs read from them. -/
theorem resetAndClearValues : Obligations.ResetAndClearValues := by
  refine ⟨⟨rfl, rfl, rfl, rfl, rfl, rfl, rfl, rfl, rfl, rfl, rfl, rfl⟩, fun s => ?_, fun s n hs => ?_, fun _ _ => ?_⟩
  · exact ⟨clearRun s, exec_clr s, by simp⟩
  · rw [hardReset_lfsr, hs]; rfl
  · simp [outputs, faultOut, recValid]

/-! ### The outputs (R34, R67, R68, R100) -/

theorem faultOut_eq_true_iff (s : State) : faultOut s = true ↔ s.fsm = .fault := by simp [faultOut]

theorem recValid_eq_true_iff (s : State) : recValid s = true ↔ s.fsm = .framed := by simp [recValid]

theorem toBits_getElem? (V : Word32) {i : Nat} (hi : i < 32) : (toBits V)[i]? = some (V.getLsbD (31 - i)) := by
  simp [toBits, hi]

@[simp] theorem hexDigits_length (V : Word32) : (hexDigits V).length = 8 := by simp [hexDigits]

theorem hexDigits_getElem? (V : Word32) {j : Nat} (hj : j < 8) :
    (hexDigits V)[j]? = some (BitVec.ofNat 4 (V.toNat / 2 ^ (28 - 4 * j))) := by
  simp [hexDigits, hj, BitVec.extractLsb', Nat.shiftRight_eq_div_pow]

/-- Settles O53: the status bits by their iffs, the codes by their tables, the registers as they stand, the two views of
`crc_value` digit by digit, and the ports as reads of a list. -/
theorem outputsAreFunctionsOfState : Obligations.OutputsAreFunctionsOfState := by
  intro s fAddr bAddr o
  have fsmShown : ∀ f, s.fsm = f → o.fsmState = fsmCode f := fun _ h => congrArg fsmCode h
  have algoShown : ∀ a, s.algo = a → o.algo = algoCode a := fun _ h => congrArg algoCode h
  have errShown : ∀ e, s.err = e → o.err = errCode e := fun _ h => congrArg errCode h
  exact ⟨faultOut_eq_true_iff s, recValid_eq_true_iff s, rfl,
    fsmShown _, fsmShown _, fsmShown _, fsmShown _, fsmShown _, fsmShown _,
    algoShown _, algoShown _, algoShown _,
    errShown _, errShown _, errShown _, errShown _, errShown _, errShown _, errShown _, errShown _, errShown _,
    rfl, rfl, rfl, rfl, rfl, rfl, rfl, rfl,
    toBits_length _, fun _ => toBits_getElem? _, hexDigits_length _, fun _ => hexDigits_getElem? _,
    decide_eq_true_iff, fun h => List.getElem?_eq_getElem h, List.getElem?_eq_none,
    decide_eq_true_iff, fun h => List.getElem?_eq_getElem h, List.getElem?_eq_none⟩

end Sys2Proof.Machine
end

section
/-! PROOFS of `spec/20_memory.md`: which commands write which storage (R60, R71), and the view of the message by octets
that `DECB` has of it (R65). -/

namespace Sys2Proof.Machine

/-! ### The writers of the storage (R24 to R32, R60, R71) -/

/-- A command that does not perform its pseudocode is ignored or raises an error, and an error writes `err` and `fsm`
only (R290). -/
theorem exec_writes_errAndFsm_or_commandBody {i : Instr} {s t : State} (h : exec i s = .next t) :
    (∃ e f, t = { s with err := e, fsm := f }) ∨ commandBody i s = .ok t := by
  obtain ⟨-, -, rfl⟩ | ⟨-, rfl⟩ | ⟨-, rfl⟩ | ⟨-, hb⟩ | ⟨-, e, -, rfl⟩ := exec_cases h
  · exact .inl ⟨t.err, t.fsm, rfl⟩
  · exact .inl ⟨.sequenceError, .fault, rfl⟩
  · exact .inl ⟨.emptyMessage, .fault, rfl⟩
  · exact .inr hb
  · exact .inl ⟨e, .fault, rfl⟩

/-- Settles O31: neither `err` nor `fsm` is among the storage, so a command that writes some of it performs its
pseudocode, and `commandBody_ok` names the commands whose pseudocode writes it. -/
theorem onlyListedCommandsWriteState : Obligations.OnlyListedCommandsWriteState := by
  intro i s t h
  obtain ⟨e, f, rfl⟩ | hb := exec_writes_errAndFsm_or_commandBody h
  · simp
  · obtain ⟨hport, -, -, hM, hF, hB, hmsgLen, hcrc, hregs, hlfsr, -⟩ := commandBody_ok hb
    refine ⟨hM.resolve_left, hF.resolve_left, hB.resolve_left, hmsgLen.resolve_left, hcrc.resolve_left,
      fun hchanged => hregs.resolve_left ?_, hlfsr.resolve_left, hport⟩
    rintro ⟨halgo, hk, hr, hpad⟩
    simp [halgo, hk, hr, hpad] at hchanged

/-! ### Reading a sequence (R10) -/

theorem memRead_append_prefix {α : Type} (X Y : List α) : memRead (X ++ Y) 0 X.length = some X := by
  simp [memRead]

theorem memRead_append_after {α : Type} (X Y : List α) (i n : Nat) :
    memRead (X ++ Y) (X.length + i) n = memRead Y i n := by
  simp [memRead, Nat.add_assoc]

/-- In the bits of some octets, the 8 from index `8 * j` are the bits of octet `j`. -/
theorem memRead_bytesToBits {x : List Octet} {j : Nat} {b : Octet} (hb : x[j]? = some b) :
    memRead (bytesToBits x) (8 * j) 8 = some (octetBits b) := by
  induction x generalizing j with
  | nil => cases hb
  | cons a x ih =>
    cases j with
    | zero =>
      cases hb
      exact octetBits_length b ▸ memRead_append_prefix (octetBits b) (bytesToBits x)
    | succ j =>
      have hafter := memRead_append_after (octetBits a) (bytesToBits x) (8 * j) 8
      rw [octetBits_length, Nat.add_comm] at hafter
      rw [bytesToBits_cons, Nat.mul_succ, hafter]
      exact ih hb

/-! ### The octets that `DECB` makes (R65, R135) -/

/-- A command that does not end in `Fault` has performed its pseudocode. -/
theorem commandBody_of_exec_of_ne_fault {i : Instr} {s t : State} (h : exec i s = .next t) (ht : t.fsm ≠ .fault) :
    commandBody i s = .ok t := by
  obtain ⟨hf, -, rfl⟩ | ⟨-, rfl⟩ | ⟨-, rfl⟩ | ⟨-, hb⟩ | ⟨-, e, -, rfl⟩ := exec_cases h
  · exact absurd hf ht
  · exact absurd (raiseError_fsm _ s) ht
  · exact absurd (raiseError_fsm _ s) ht
  · exact hb
  · exact absurd (raiseError_fsm e s) ht

theorem decbBody_bytesToBits_B {s t : State} (hb : decbBody s = .ok t) : bytesToBits t.B = s.M := by
  unfold decbBody at hb
  split at hb
  · cases hb
  · next octets hoctets =>
    cases hb
    exact bytesToBits_of_bitsToBytes hoctets

/-- Settles O56: `M` is the bits of the octets made, so the read at `8 * j` gives those of octet `j`. -/
theorem decbReadsMessageByOctets : Obligations.DecbReadsMessageByOctets := by
  intro s t hs h hkept j b hj
  have hnofault : t.fsm ≠ .fault := by
    obtain hs | hs := hs <;> simp [hkept, hs]
  have hM : bytesToBits t.B = s.M := decbBody_bytesToBits_B (commandBody_of_exec_of_ne_fault h hnofault)
  rw [← hM, memRead_bytesToBits hj, octetBits_eq]

end Sys2Proof.Machine
end

section
/-! PROOFS of `spec/30_encoding.md`: the decoder and the encoder (R90 to R95), the layout of a frame and its record
(R96, R99), and the lines of the assembler (R102, R103).

One fact carries the encoding: a word decodes to the command whose opcode stands in `cmd[39:36]` and whose operand, read
as a number, stands in `cmd[35:0]` (`decode_eq_ok_iff`). It makes decoder and encoder inverse; the opcode map and the
opcode table are readings of it. A line is read part by part: each reader has a lemma that says what it makes of the
text a writer gives and of what stands after it. -/

namespace Sys2Proof.Machine

open Sys2Proof.Laws

/-! ### The fields of a word (R90, R92) -/

/-- A word is its opcode and its operand field. -/
theorem wordOf_opcodeOf_operandField (w : CmdWord) : wordOf (opcodeOf w) (operandField w).toNat = w := by
  apply BitVec.eq_of_toNat_eq
  rw [EncodedWord.wordOf_toNat, EncodedWord.opcodeOf_eq_div, EncodedWord.operandField_eq_mod]
  have := w.isLt
  omega

theorem encode_eq_wordOf (i : Instr) : encode i = wordOf i.opcode i.operand := by
  cases i <;> rfl

theorem opcode_le_nine (i : Instr) : i.opcode ≤ 9 := by
  cases i <;> simp [Instr.opcode]

/-- A word meets R94 when its opcode is assigned and its operand field is below the bound of its format. -/
theorem wordWellFormed_iff (w : CmdWord) : wordWellFormed w = true ↔
    w.toNat / 0x1000000000 ≤ 9 ∧ w.toNat % 0x1000000000 < operandBound (w.toNat / 0x1000000000) := by
  rw [← EncodedWord.opcodeOf_eq_div, ← EncodedWord.operandField_eq_mod]
  simp [wordWellFormed, opcodeAssigned, mbzClear, operandField]

/-- What the encoder gives for a command, by the law of each command. -/
theorem encodedWord (i : Instr) : EncodedWord.Statement i := by
  cases i with
  | nop => exact EncodedWord.nop
  | clr => exact EncodedWord.clr
  | putb imm8 => exact EncodedWord.putb imm8
  | putsym imm8 => exact EncodedWord.putsym imm8
  | decb => exact EncodedWord.decb
  | enccrc => exact EncodedWord.enccrc
  | encham kop => exact EncodedWord.encham kop
  | seed sd => exact EncodedWord.seed sd
  | noise T => exact EncodedWord.noise T
  | frame => exact EncodedWord.frame

/-! ### The decoder, format by format (R91) -/

theorem decodeN_eq_ok_iff {op : Nat} {i j : Instr} {w : CmdWord} :
    decodeN op i w = .ok j ↔ (operandField w).toNat = 0 ∧ i = j := by
  have hzero : operandField w = 0 ↔ (operandField w).toNat = 0 := by simp [BitVec.toNat_eq]
  unfold decodeN
  split <;> simp_all

/-- An operand of `n` bits with `m` must-be-zero bits above it: read as a number the whole field is `b` exactly when the
bits above are zero and the operand is `b`. -/
theorem operandField_eq_iff {n m : Nat} (h : n + m = 36) (w : CmdWord) (b : BitVec n) :
    (operandField w).toNat = b.toNat ↔ w.extractLsb' n m = 0 ∧ w.extractLsb' 0 n = b := by
  have hlow : (w.extractLsb' 0 n).toNat = (operandField w).toNat % 2 ^ n := by
    rw [operandField, BitVec.extractLsb'_toNat, BitVec.extractLsb'_toNat,
      Nat.mod_mod_of_dvd _ (Nat.pow_dvd_pow 2 (by omega))]
  have hhigh : (w.extractLsb' n m).toNat = (operandField w).toNat / 2 ^ n := by
    rw [operandField, BitVec.extractLsb'_toNat, BitVec.extractLsb'_toNat, Nat.shiftRight_zero,
      Nat.shiftRight_eq_div_pow, ← h, pow_add, Nat.mod_mul_right_div_self]
  rw [BitVec.toNat_eq, BitVec.toNat_eq (y := b), hlow, hhigh]
  constructor
  · intro hb
    rw [hb]
    exact ⟨Nat.div_eq_of_lt b.isLt, Nat.mod_eq_of_lt b.isLt⟩
  · rintro ⟨hdiv, hmod⟩
    have hparts := Nat.div_add_mod (operandField w).toNat (2 ^ n)
    rw [hdiv, hmod] at hparts
    simpa using hparts.symm

theorem decodeB_eq_ok_iff {op : Nat} {mk : Octet → Instr} {i : Instr} {w : CmdWord} :
    decodeB op mk w = .ok i ↔ ∃ b, (operandField w).toNat = b.toNat ∧ mk b = i := by
  simp only [operandField_eq_iff (show 8 + 28 = 36 from rfl)]
  unfold decodeB
  split <;> simp_all

theorem decodeS_eq_ok_iff {op : Nat} {mk : Word32 → Instr} {i : Instr} {w : CmdWord} :
    decodeS op mk w = .ok i ↔ ∃ b, (operandField w).toNat = b.toNat ∧ mk b = i := by
  simp only [operandField_eq_iff (show 32 + 4 = 36 from rfl)]
  unfold decodeS
  split <;> simp_all

/-! ### The decoder as a whole (R95) -/

/-- The command a word decodes to is read off its opcode and its operand field. -/
theorem decode_eq_ok_iff {w : CmdWord} {i : Instr} :
    decode w = .ok i ↔ opcodeOf w = i.opcode ∧ (operandField w).toNat = i.operand := by
  constructor
  · intro h
    unfold decode at h
    split at h
    · next hop => obtain ⟨hv, rfl⟩ := decodeN_eq_ok_iff.1 h; exact ⟨hop, hv⟩
    · next hop => obtain ⟨hv, rfl⟩ := decodeN_eq_ok_iff.1 h; exact ⟨hop, hv⟩
    · next hop => obtain ⟨b, hv, rfl⟩ := decodeB_eq_ok_iff.1 h; exact ⟨hop, hv⟩
    · next hop => obtain ⟨b, hv, rfl⟩ := decodeB_eq_ok_iff.1 h; exact ⟨hop, hv⟩
    · next hop => obtain ⟨hv, rfl⟩ := decodeN_eq_ok_iff.1 h; exact ⟨hop, hv⟩
    · next hop => obtain ⟨hv, rfl⟩ := decodeN_eq_ok_iff.1 h; exact ⟨hop, hv⟩
    · next hop => cases h; exact ⟨hop, rfl⟩
    · next hop => obtain ⟨b, hv, rfl⟩ := decodeS_eq_ok_iff.1 h; exact ⟨hop, hv⟩
    · next hop => cases h; exact ⟨hop, rfl⟩
    · next hop => obtain ⟨hv, rfl⟩ := decodeN_eq_ok_iff.1 h; exact ⟨hop, hv⟩
    · cases h
  · rintro ⟨hop, hv⟩
    cases i <;> simp only [Instr.opcode, Instr.operand] at hop hv <;> simp only [decode, hop]
    case putb imm8 => exact decodeB_eq_ok_iff.2 ⟨imm8, hv, rfl⟩
    case putsym imm8 => exact decodeB_eq_ok_iff.2 ⟨imm8, hv, rfl⟩
    case encham kop => rw [BitVec.eq_of_toNat_eq hv]
    case seed sd => exact decodeS_eq_ok_iff.2 ⟨sd, hv, rfl⟩
    case noise T => rw [BitVec.eq_of_toNat_eq hv]
    all_goals exact decodeN_eq_ok_iff.2 ⟨hv, rfl⟩

/-- Settles O1: a command and the word it is written with have the same opcode and operand, and by `decode_eq_ok_iff`
so have a word and the command it decodes to. -/
theorem decodeEncodeRoundTrip : Obligations.DecodeEncodeRoundTrip := by
  refine ⟨fun i => ?_, fun w i h => ?_⟩
  · obtain ⟨-, -, hop, hv⟩ := encodedWord i
    exact decode_eq_ok_iff.2 ⟨hop, hv⟩
  · obtain ⟨hop, hv⟩ := decode_eq_ok_iff.1 h
    rw [encode_eq_wordOf, ← hop, ← hv, wordOf_opcodeOf_operandField]

theorem decode_encode (i : Instr) : decode (encode i) = .ok i := decodeEncodeRoundTrip.1 i

theorem encode_of_decode {w : CmdWord} {i : Instr} (h : decode w = .ok i) : encode i = w :=
  decodeEncodeRoundTrip.2 w i h

/-- Settles O2: each clause names the opcode and the operand of its command, which `decode_eq_ok_iff` asks for. -/
theorem decodeFollowsOpcodeMap : Obligations.DecodeFollowsOpcodeMap := by
  intro w op v
  have decodes : ∀ i : Instr, op = i.opcode → v = i.operand → decode w = .ok i := fun i hop hv =>
    decode_eq_ok_iff.2 ⟨(EncodedWord.opcodeOf_eq_div w).trans hop, (EncodedWord.operandField_eq_mod w).trans hv⟩
  have fits_field : ∀ n, v < 2 ^ n → v = (BitVec.ofNat n v).toNat := fun n hv => by
    rw [BitVec.toNat_ofNat, Nat.mod_eq_of_lt hv]
  have hv36 : v < 2 ^ 36 := Nat.mod_lt _ (by decide)
  exact ⟨decodes .nop, decodes .clr, fun hop hv => decodes (.putb _) hop (fits_field 8 hv),
    fun hop hv => decodes (.putsym _) hop (fits_field 8 hv), decodes .decb, decodes .enccrc,
    fun hop => decodes (.encham _) hop (fits_field 36 hv36), fun hop hv => decodes (.seed _) hop (fits_field 32 hv),
    fun hop => decodes (.noise _) hop (fits_field 36 hv36), decodes .frame⟩

/-! ### Reserved words (R94, R287) -/

/-- The words that decode to a command are those that meet R94. -/
theorem exists_decode_eq_ok_iff (w : CmdWord) : (∃ i, decode w = .ok i) ↔ wordWellFormed w = true := by
  constructor
  · rintro ⟨i, h⟩
    obtain ⟨-, hword, -, -⟩ := encodedWord i
    rwa [encode_of_decode h] at hword
  · intro h
    obtain ⟨h9, hbound⟩ := (wordWellFormed_iff w).1 h
    obtain ⟨nop, clr, putb, putsym, decb, enccrc, encham, seed, noise, frame⟩ := decodeFollowsOpcodeMap w
    generalize w.toNat / 0x1000000000 = op at *
    interval_cases op
    · exact ⟨_, nop rfl (Nat.lt_one_iff.1 hbound)⟩
    · exact ⟨_, clr rfl (Nat.lt_one_iff.1 hbound)⟩
    · exact ⟨_, putb rfl hbound⟩
    · exact ⟨_, putsym rfl hbound⟩
    · exact ⟨_, decb rfl (Nat.lt_one_iff.1 hbound)⟩
    · exact ⟨_, enccrc rfl (Nat.lt_one_iff.1 hbound)⟩
    · exact ⟨_, encham rfl⟩
    · exact ⟨_, seed rfl hbound⟩
    · exact ⟨_, noise rfl⟩
    · exact ⟨_, frame rfl (Nat.lt_one_iff.1 hbound)⟩

theorem exists_decode_eq_error_iff (w : CmdWord) : (∃ e, decode w = .error e) ↔ ¬ wordWellFormed w = true := by
  rw [← exists_decode_eq_ok_iff]
  cases decode w <;> simp

/-- R94 spelt out by opcode. -/
theorem not_wordWellFormed_iff (w : CmdWord) :
    let op := w.toNat / 0x1000000000
    let v := w.toNat % 0x1000000000
    ¬ wordWellFormed w = true ↔
      10 ≤ op ∨ ((op = 0 ∨ op = 1 ∨ op = 4 ∨ op = 5 ∨ op = 9) ∧ v ≠ 0) ∨
        ((op = 2 ∨ op = 3) ∧ 0x100 ≤ v) ∨ (op = 7 ∧ 0x100000000 ≤ v) := by
  intro op v
  have hv : v < 0x1000000000 := Nat.mod_lt _ (by decide)
  rw [wordWellFormed_iff]
  change ¬ (op ≤ 9 ∧ v < operandBound op) ↔ _
  by_cases h9 : op ≤ 9
  · interval_cases op <;> simp [operandBound] <;> omega
  · omega

/-- The step on a presented word that the decoder refuses. -/
theorem step_of_reserved {s : State} {c : PortCycle} {rest : List PortCycle} (hp : s.port = c :: rest)
    (hr : c.rst = false) (hv : c.cmdValid = true) (hd : ∃ e, decode c.cmd = .error e) :
    step s = .next (takeReserved { s with port := rest }) := by
  obtain ⟨e, he⟩ := hd
  simp [step, fetch_word hp hr hv, he]

/-- The step on a presented word that decodes to a command. -/
theorem step_of_decoded {s : State} {c : PortCycle} {rest : List PortCycle} {i : Instr} (hp : s.port = c :: rest)
    (hr : c.rst = false) (hv : c.cmdValid = true) (hd : decode c.cmd = .ok i) :
    step s = exec i { s with port := rest } := by
  simp [step, fetch_word hp hr hv, hd]

/-- Settles O3: the decoder refuses what R94 reserves, and a refused word does what `takeReserved` does outside
`Fault`. -/
theorem reservedWordsRaiseIllegalCommand : Obligations.ReservedWordsRaiseIllegalCommand := by
  refine ⟨fun w => ?_, fun s c rest hp hr hv hd hnofault => ?_, rfl, .reservedOpcode 15, rfl⟩
  · exact (exists_decode_eq_error_iff w).trans (not_wordWellFormed_iff w)
  · rw [step_of_reserved hp hr hv hd]
    obtain ⟨hfault, -⟩ | ⟨-, htaken⟩ := takeReserved_cases { s with port := rest }
    · exact absurd hfault hnofault
    · rw [htaken, raiseError]

/-- Settles O11: the word is the next cycle of the port, and taking it off gives the state back. -/
theorem placedWordRunsNext : Obligations.PlacedWordRunsNext := by
  intro s w i h
  have hd : decode (tableWord 40 w) = .ok i := by
    unfold decodeTableWord at h
    split at h
    · next hd => rwa [Option.some.inj h] at hd
    · cases h
  rw [step_of_decoded (withFetchWord_port s 40 w) rfl rfl hd, withFetchWord_drop]

/-! ### The opcode table (R95) -/

/-- The number of bits of a command's operand (R91). -/
def operandWidth : Instr → Nat
  | .nop => 0
  | .clr => 0
  | .putb _ => 8
  | .putsym _ => 8
  | .decb => 0
  | .enccrc => 0
  | .encham _ => 36
  | .seed _ => 32
  | .noise _ => 36
  | .frame => 0

theorem operandBound_opcode (i : Instr) : operandBound i.opcode = 2 ^ operandWidth i := by
  cases i <;> rfl

/-- The row of a command's mnemonic: every bit above the operand is compared with the opcode followed by zeros. -/
def rowOf (i : Instr) : OpcodeRow :=
  ⟨mnemonicOf i, wordOf i.opcode 0, BitVec.allOnes 40 <<< operandWidth i⟩

/-- One command for each mnemonic, in the order of the opcodes. -/
def mnemonicSamples : List Instr :=
  [.nop, .clr, .putb 0, .putsym 0, .decb, .enccrc, .encham 0, .seed 0, .noise 0, .frame]

theorem opcodeTable_eq : opcodeTable = mnemonicSamples.map rowOf := by decide

theorem rowOf_fits_iff_masked (i : Instr) (w : CmdWord) : (rowOf i).fits w = true ↔
    w.toNat / 2 ^ operandWidth i * 2 ^ operandWidth i = i.opcode * 0x1000000000 := by
  have hkept : w.toNat / 2 ^ operandWidth i * 2 ^ operandWidth i < 2 ^ 40 :=
    (Nat.div_mul_le_self _ _).trans_lt w.isLt
  have hpattern : (wordOf i.opcode 0).toNat = i.opcode * 0x1000000000 := by
    have := opcode_le_nine i
    rw [EncodedWord.wordOf_toNat]
    omega
  rw [OpcodeRow.fits, beq_iff_eq, rowOf, ← BitVec.shiftLeft_ushiftRight, BitVec.toNat_eq, BitVec.toNat_shiftLeft,
    BitVec.toNat_ushiftRight, Nat.shiftRight_eq_div_pow, Nat.shiftLeft_eq, Nat.mod_eq_of_lt hkept, hpattern]

/-- A word fits the row exactly when it has the row's opcode and an operand within the row's width. -/
theorem rowOf_fits_iff (i : Instr) (w : CmdWord) :
    (rowOf i).fits w = true ↔ opcodeOf w = i.opcode ∧ (operandField w).toNat < operandBound i.opcode := by
  rw [rowOf_fits_iff_masked, operandBound_opcode, EncodedWord.opcodeOf_eq_div, EncodedWord.operandField_eq_mod]
  cases i <;> simp only [operandWidth, Instr.opcode] <;> omega

/-- The samples with a given command's opcode are the one with its mnemonic. -/
theorem mnemonicSamples_filter_opcode (i : Instr) :
    ((mnemonicSamples.filter fun j => i.opcode == j.opcode).map mnemonicOf) = [mnemonicOf i] := by
  cases i <;> rfl

/-- Settles O4: a decoded word has its command's opcode with an operand that fits, so it fits the row of that opcode and
no other; the opcode and operand of any row make a word that is not reserved. -/
theorem opcodeRowsAgreeWithDecode : Obligations.OpcodeRowsAgreeWithDecode := by
  intro w
  rw [opcodeTable_eq, List.filter_map, Function.comp_def]
  refine ⟨fun i h => ?_, fun e h => ?_⟩
  · obtain ⟨hop, hv⟩ := decode_eq_ok_iff.1 h
    obtain ⟨hwf, -, -, -⟩ := encodedWord i
    have hfits : ∀ j ∈ mnemonicSamples, (rowOf j).fits w = (i.opcode == j.opcode) := by
      intro j _
      rw [Bool.eq_iff_iff, rowOf_fits_iff, hop, hv, beq_iff_eq, and_iff_left_iff_imp]
      intro hsame
      rw [← hsame]
      simpa [Instr.wellFormed] using hwf
    rw [List.map_map, List.filter_congr hfits]
    exact mnemonicSamples_filter_opcode i
  · have hreserved := (exists_decode_eq_error_iff w).1 ⟨e, h⟩
    rw [List.map_eq_nil_iff, List.filter_eq_nil_iff]
    intro j _ hfits
    obtain ⟨hop, hbound⟩ := (rowOf_fits_iff j w).1 hfits
    have h9 := opcode_le_nine j
    rw [← hop] at h9 hbound
    rw [EncodedWord.opcodeOf_eq_div] at h9 hbound
    rw [EncodedWord.operandField_eq_mod] at hbound
    exact hreserved ((wordWellFormed_iff w).2 ⟨h9, hbound⟩)

/-! ### The frames and their record (R96, R99) -/

theorem enccrcBody_frame {s t : State} (hb : enccrcBody s = .ok t) :
    t.crc = crc32Compute s.M ∧ t.F = s.M ++ toBits t.crc := by
  unfold enccrcBody at hb
  split at hb
  · cases hb
  · cases hb
    exact ⟨rfl, rfl⟩

/-- Settles O37: the frame is the message followed by the bits of the register, read by index on either side of
`len(M)`. -/
theorem crcFrameLayout : Obligations.CrcFrameLayout := by
  intro s t _ h ht
  have hb : commandBody .enccrc s = .ok t := commandBody_of_exec_of_ne_fault h (by simp [ht])
  obtain ⟨hcrc, hF⟩ := enccrcBody_frame hb
  refine ⟨by simp [hF], hcrc, fun i hi => ?_, fun i hi => ?_⟩
  · rw [hF, List.getElem?_append_left hi]
  · rw [hF, List.getElem?_append_right (Nat.le_add_right _ _), Nat.add_sub_cancel_left, toBits_getElem? _ hi]

theorem le_redundancySearch (k fuel r : Nat) : r ≤ redundancySearch k fuel r := by
  induction fuel generalizing r with
  | zero => exact le_rfl
  | succ fuel ih =>
    rw [redundancySearch]
    split
    · exact (Nat.le_succ r).trans (ih (r + 1))
    · exact le_rfl

/-- Every block has a parity bit: with no parity bits there is room for no data (R180). -/
theorem redundancyFor_pos {k : Nat} (hk : 1 ≤ k) : 0 < redundancyFor k := by
  rw [redundancyFor, redundancySearch, if_pos (by omega)]
  exact le_redundancySearch k k 1

/-- Settles O55: with `nb` blocks, `L + pad_bits` is `nb * k` and `flen` is `nb * (k + r)`, so what is left of the frame
is `nb * r`; neither `r` nor `nb` is 0. -/
theorem recordDeterminesBlockSize : Obligations.RecordDeterminesBlockSize := by
  intro s hi hframe halgo
  obtain ⟨-, hM, -⟩ := hi.frameThere hframe
  obtain ⟨hk, -, hr, hpad, hlen, -, -⟩ := hi.hammingFrame hframe halgo
  have hrpos : 0 < s.r.toNat := hr ▸ redundancyFor_pos hk
  obtain ⟨nb, hnb⟩ : s.k.toNat ∣ s.M.length + s.padBits.toNat := hpad ▸ dvd_add_padFor hk s.M.length
  have hnbpos : 0 < nb := by
    apply Nat.pos_of_ne_zero
    rintro rfl
    omega
  rw [hnb, Nat.mul_div_cancel_left nb hk] at hlen
  have hparity : s.F.length - s.M.length - s.padBits.toNat = nb * s.r.toNat := by
    rw [Nat.sub_sub, hnb, hlen, Nat.mul_add, Nat.mul_comm nb s.k.toNat, Nat.add_sub_cancel_left]
  rw [hparity, Nat.mul_div_cancel nb hrpos, hnb, Nat.mul_div_cancel _ hnbpos, hlen]
  exact ⟨rfl, rfl⟩

/-! ### The threshold of `NOISEP` (R103, R223) -/

theorem thresholdOf_le {num den : Nat} (hden : 0 < den) (h : num ≤ den) : thresholdOf num den ≤ 0x100000000 := by
  unfold thresholdOf
  apply Nat.le_of_lt_succ
  rw [Nat.div_lt_iff_lt_mul (by omega)]
  omega

/-- The threshold of a probability is R223's, without loss in the 36-bit field. -/
theorem noisepThreshold_toNat {p : Fraction} (hden : 0 < p.den) (hsign : p.negative = false ∨ p.num = 0)
    (h : p.num ≤ p.den) : (noisepThreshold p).toNat = thresholdOf p.num p.den := by
  have hle := thresholdOf_le hden h
  rw [noisepThreshold, if_neg (by cases hsign <;> simp_all), BitVec.toNat_ofNat, Nat.mod_eq_of_lt (by omega)]

/-- Any other fraction has the illegal threshold. -/
theorem noisepThreshold_eq_illegal {p : Fraction} (h : (p.negative = true ∧ p.num ≠ 0) ∨ p.den < p.num) :
    noisepThreshold p = 0xFFFFFFFFF#36 := by
  rw [noisepThreshold, if_pos (by simpa using h)]

/-- All that `NOISE` does in `Encoded` (R228). -/
theorem exec_noise_of_encoded (T : Operand36) {s : State} (hs : s.fsm = .encoded) : exec (.noise T) s = .next
    (if 0x100000000 < T.toNat then raiseError .invalidProbability s
      else { s with F := (bscApply rngNext T s.F s.lfsr).1, lfsr := (bscApply rngNext T s.F s.lfsr).2,
                    fsm := .noised }) := by
  have hok : legality (.noise T) s.fsm = .ok := (legality_noise_eq_ok_iff T s.fsm).2 hs
  have hbody := noiseBody_eq T s
  rw [exec_eq_perform]
  by_cases hT : 0x100000000 < T.toNat
  · rw [if_pos hT] at hbody ⊢
    exact congrArg _ (perform_raises hok hbody)
  · rw [if_neg hT] at hbody ⊢
    exact congrArg _ (perform_done hok hbody)

/-- Settles O59: the threshold is at most 2^32 for a probability, and above it for any other fraction. -/
theorem noisepAcceptsExactlyProbabilities : Obligations.NoisepAcceptsExactlyProbabilities := by
  intro p s hden hs
  refine ⟨noisepThreshold p, rfl, fun ⟨hsign, hle⟩ => ?_, fun hno => ?_⟩
  · have hT := noisepThreshold_toNat hden hsign hle
    have hlegal : ¬ 0x100000000 < (noisepThreshold p).toNat := by
      rw [hT]
      exact Nat.not_lt.2 (thresholdOf_le hden hle)
    exact ⟨hT, _, exec_noise_of_encoded _ hs, by rw [if_neg hlegal]⟩
  · rw [exec_noise_of_encoded _ hs, noisepThreshold_eq_illegal hno]
    rfl

/-! ### The parts of a line (R102) -/

/-- What follows a mnemonic and its blank starts with no further blank. -/
def StartsNonBlank (cs : List Char) : Prop := ∃ c rest, cs = c :: rest ∧ c ≠ ' ' ∧ c ≠ '\t'

theorem skipBlanks_of_startsNonBlank {cs : List Char} (h : StartsNonBlank cs) : skipBlanks cs = cs := by
  obtain ⟨c, rest, rfl, hspace, htab⟩ := h
  simp [skipBlanks, hspace, htab]

theorem skipBlanks_blank (cs : List Char) : skipBlanks (' ' :: cs) = skipBlanks cs := rfl

theorem isMnemonicChar_not_blank {c : Char} (h : isMnemonicChar c = true) : c ≠ ' ' ∧ c ≠ '\t' := by
  constructor <;> rintro rfl <;> revert h <;> decide

/-- A word of upper case letters. -/
def IsMnemonic (word : List Char) : Prop := word ≠ [] ∧ ∀ c ∈ word, isMnemonicChar c = true

theorem isMnemonic_of_all {c : Char} {cs : List Char} (h : (c :: cs).all isMnemonicChar = true) :
    IsMnemonic (c :: cs) := ⟨List.cons_ne_nil c cs, List.all_eq_true.1 h⟩

theorem IsMnemonic.startsNonBlank {word : List Char} (h : IsMnemonic word) (rest : List Char) :
    StartsNonBlank (word ++ rest) := by
  obtain ⟨hne, hall⟩ := h
  obtain ⟨c, word, rfl⟩ := List.exists_cons_of_ne_nil hne
  exact ⟨c, word ++ rest, rfl, isMnemonicChar_not_blank (hall c (by simp))⟩

/-- A line that is a mnemonic alone. -/
theorem assembleLine_mnemonic {word : List Char} (h : IsMnemonic word) :
    assembleLine word = readAfterMnemonic word [] := by
  have hskip : skipBlanks word = word := by
    simpa using skipBlanks_of_startsNonBlank (h.startsNonBlank [])
  have htake : word.takeWhile isMnemonicChar = word := List.takeWhile_eq_self_iff.2 h.2
  have hdrop : word.dropWhile isMnemonicChar = [] := List.dropWhile_eq_nil_iff.2 h.2
  rw [assembleLine]
  simp only [hskip, htake, hdrop, if_neg h.1]
  rfl

/-- A line that is a mnemonic, one blank and an operand. -/
theorem assembleLine_mnemonic_operand {word operand : List Char} (h : IsMnemonic word)
    (hop : StartsNonBlank operand) : assembleLine (word ++ ' ' :: operand) = readAfterMnemonic word operand := by
  have hskip : skipBlanks (word ++ ' ' :: operand) = word ++ ' ' :: operand :=
    skipBlanks_of_startsNonBlank (h.startsNonBlank _)
  have htake : (word ++ ' ' :: operand).takeWhile isMnemonicChar = word := by
    rw [List.takeWhile_append_of_pos h.2]; simp [isMnemonicChar]
  have hdrop : (word ++ ' ' :: operand).dropWhile isMnemonicChar = ' ' :: operand := by
    rw [List.dropWhile_append_of_pos h.2]; simp [isMnemonicChar]
  have hrest : skipBlanks (' ' :: operand) = operand := skipBlanks_of_startsNonBlank hop
  have hne : (operand != ' ' :: operand) = true := by simp
  rw [assembleLine]
  simp only [hskip, htake, hdrop, hrest, hne, if_neg h.1, Bool.or_true, if_true]

/-! ### Hexadecimal digits -/

theorem hexDigitValue_hexChar {d : Nat} (h : d < 16) : hexDigitValue (hexChar d) = some d := by
  have all_digits : ∀ d : Fin 16, hexDigitValue (hexChar d) = some d.val := by decide
  exact all_digits ⟨d, h⟩

theorem hexText_succ (n v : Nat) : hexText (n + 1) v = hexChar (v / 16 ^ n % 16) :: hexText n v := by
  simp only [hexText, List.range_succ_eq_map, List.map_cons, List.map_map]
  congr 1
  apply List.map_congr_left
  intro j _
  simp only [Function.comp_apply]
  congr 4
  omega

/-- Reading the digits that `hexText` writes goes on with `rest`, the value read so far shifted and the number added. -/
theorem readDigits_hexText (n v count acc : Nat) (rest : List Char) :
    readDigits 16 count acc (hexText n v ++ rest) = readDigits 16 (count + n) (16 ^ n * acc + v % 16 ^ n) rest := by
  induction n generalizing count acc with
  | zero => simp [hexText, Nat.mod_one]
  | succ n ih =>
    have hdigit : v / 16 ^ n % 16 < 16 := Nat.mod_lt _ (by decide)
    have hvalue : 16 ^ n * (16 * acc + v / 16 ^ n % 16) + v % 16 ^ n = 16 ^ (n + 1) * acc + v % 16 ^ (n + 1) := by
      rw [pow_succ, Nat.mod_mul]; ring
    rw [hexText_succ, List.cons_append, readDigits, hexDigitValue_hexChar hdigit]
    simp only [hdigit, if_true]
    rw [ih, hvalue, Nat.add_right_comm, Nat.add_assoc]

/-- No digit stands at the head of `rest`. -/
def EndsDigits (rest : List Char) : Prop := ∀ count acc, readDigits 16 count acc rest = (count, acc, rest)

theorem endsDigits_nil : EndsDigits [] := fun _ _ => rfl

theorem endsDigits_comma (cs : List Char) : EndsDigits (',' :: cs) := fun _ _ => rfl

/-- A field of `n` bits is written with a digit for every four of them. -/
theorem readOperand_hexText {n digits : Nat} (hn : n = 4 * digits) (hpos : 0 < digits) (v : BitVec n)
    {rest : List Char} (hrest : EndsDigits rest) :
    readOperand n ('0' :: 'x' :: (hexText digits v.toNat ++ rest)) = some (v, rest) := by
  have hdigits : v.toNat % 16 ^ digits = v.toNat := by
    have hpow : 2 ^ n = 16 ^ digits := by rw [hn, pow_mul]; rfl
    exact Nat.mod_eq_of_lt (hpow ▸ v.isLt)
  have hread : readNumber ('0' :: 'x' :: (hexText digits v.toNat ++ rest)) = some (v.toNat, rest) := by
    obtain ⟨d, rfl⟩ := Nat.exists_eq_add_of_lt hpos
    rw [readNumber, readNumberIn, readDigits_hexText, hrest, hdigits]
    simp
  rw [readOperand, hread]
  simp only [if_pos v.isLt, BitVec.ofNat_toNat, BitVec.setWidth_eq]

/-! ### Texts and fractions -/

theorem asciiCode_of_lt {c : Char} (h : c.toNat < 128) : asciiCode c = some (BitVec.ofNat 8 c.toNat) := if_pos h

theorem readTextBody_closed {text : List Char} (h : ∀ c ∈ text, c.toNat < 128 ∧ c ≠ '\"') (rest : List Char) :
    readTextBody (text ++ '\"' :: rest) = some (text.map fun c => BitVec.ofNat 8 c.toNat, rest) := by
  induction text with
  | nil => rfl
  | cons c text ih =>
    obtain ⟨⟨hascii, hquote⟩, htext⟩ := List.forall_mem_cons.1 h
    rw [List.cons_append, readTextBody, if_neg (by simpa using hquote), asciiCode_of_lt hascii, ih htext]
    rfl

theorem readText_quoted {text : List Char} (h : ∀ c ∈ text, c.toNat < 128 ∧ c ≠ '\"') (rest : List Char) :
    readText ('\"' :: (text ++ '\"' :: rest)) = some (text.map fun c => BitVec.ofNat 8 c.toNat, rest) :=
  readTextBody_closed h rest

theorem startsNonBlank_of_readFraction {cs rest : List Char} {p : Fraction}
    (h : readFraction cs = some (p, rest)) : StartsNonBlank cs := by
  cases cs with
  | nil => cases h
  | cons c cs =>
    refine ⟨c, cs, rfl, ?_, ?_⟩
    · rintro rfl; cases h
    · rintro rfl; cases h

theorem readComma_blank {cs : List Char} (h : StartsNonBlank cs) : readComma (',' :: ' ' :: cs) = some cs :=
  congrArg some (skipBlanks_of_startsNonBlank h)

/-! ### Lines -/

theorem assembleLine_eq_some {line word operand : List Char} {commands : List Instr}
    (hline : line = word ++ ' ' :: operand) (hword : IsMnemonic word) (hop : StartsNonBlank operand)
    (hread : readAfterMnemonic word operand = some commands) : assembleLine line = some commands := by
  rw [hline, assembleLine_mnemonic_operand hword hop, hread]

theorem startsNonBlank_cons {c : Char} (cs : List Char) (h : c ≠ ' ' ∧ c ≠ '\t') : StartsNonBlank (c :: cs) :=
  ⟨c, cs, rfl, h⟩

/-- A line whose operand is one number in hexadecimal. -/
theorem assembleLine_hex {line word : List Char} {n digits : Nat} {v : BitVec n} {i : Instr}
    (hline : line = word ++ ' ' :: '0' :: 'x' :: hexText digits v.toNat) (hword : IsMnemonic word)
    (hn : n = 4 * digits) (hpos : 0 < digits)
    (hread : ∀ cs, readOperand n ('0' :: 'x' :: cs) = some (v, []) →
      readAfterMnemonic word ('0' :: 'x' :: cs) = some [i]) :
    assembleLine line = some [i] := by
  refine assembleLine_eq_some hline hword (startsNonBlank_cons _ (by decide)) (hread _ ?_)
  simpa using readOperand_hexText hn hpos v endsDigits_nil


/-- Each mnemonic picks its branch of `readAfterMnemonic`, whose operand is the number just written. -/
theorem assembleLine_renderLine (i : Instr) : assembleLine (renderLine i) = some [i] := by
  cases i with
  | nop => exact assembleLine_mnemonic (isMnemonic_of_all rfl)
  | clr => exact assembleLine_mnemonic (isMnemonic_of_all rfl)
  | putb imm8 =>
    exact assembleLine_hex (word := ['P', 'U', 'T', 'B']) (digits := 2) rfl (isMnemonic_of_all rfl) rfl (by decide)
      fun _ h => congrArg (Option.bind · _) h
  | putsym imm8 =>
    exact assembleLine_hex (word := ['P', 'U', 'T', 'S', 'Y', 'M']) (digits := 2) rfl (isMnemonic_of_all rfl) rfl
      (by decide) fun _ h => congrArg (Option.bind · _) h
  | decb => exact assembleLine_mnemonic (isMnemonic_of_all rfl)
  | enccrc => exact assembleLine_mnemonic (isMnemonic_of_all rfl)
  | encham kop =>
    exact assembleLine_hex (word := ['E', 'N', 'C', 'H', 'A', 'M']) (digits := 9) rfl (isMnemonic_of_all rfl) rfl
      (by decide) fun _ h => congrArg (Option.bind · _) h
  | seed sd =>
    exact assembleLine_hex (word := ['S', 'E', 'E', 'D']) (digits := 8) rfl (isMnemonic_of_all rfl) rfl (by decide)
      fun _ h => congrArg (Option.bind · _) h
  | noise T =>
    exact assembleLine_hex (word := ['N', 'O', 'I', 'S', 'E']) (digits := 9) rfl (isMnemonic_of_all rfl) rfl
      (by decide) fun _ h => congrArg (Option.bind · _) h
  | frame => exact assembleLine_mnemonic (isMnemonic_of_all rfl)

/-! ### Pseudo-commands (R103) -/

/-- A line whose operand begins with a text in double quotes. -/
theorem assembleLine_quoted {line word text rest : List Char} {commands : List Instr}
    (hline : line = word ++ ' ' :: '\"' :: (text ++ '\"' :: rest)) (hword : IsMnemonic word)
    (htext : ∀ c ∈ text, c.toNat < 128 ∧ c ≠ '\"')
    (hread : ∀ cs, readText cs = some (text.map fun c => BitVec.ofNat 8 c.toNat, rest) →
      readAfterMnemonic word cs = some commands) :
    assembleLine line = some commands :=
  assembleLine_eq_some hline hword (startsNonBlank_cons _ (by decide)) (hread _ (readText_quoted htext rest))

theorem readAfterMnemonic_puts {cs : List Char} {x : List Octet} (h : readText cs = some (x, [])) :
    readAfterMnemonic ['P', 'U', 'T', 'S'] cs = some (expandPuts x) :=
  congrArg (Option.bind · _) h

theorem readAfterMnemonic_putbits {cs : List Char} {x : List Octet} (h : readText cs = some (x, [])) :
    readAfterMnemonic ['P', 'U', 'T', 'B', 'I', 'T', 'S'] cs = some (expandPutbits x) :=
  congrArg (Option.bind · _) h

theorem readAfterMnemonic_noisep {cs : List Char} {p : Fraction} (h : readFraction cs = some (p, [])) :
    readAfterMnemonic ['N', 'O', 'I', 'S', 'E', 'P'] cs = some (expandNoisep p) :=
  congrArg (Option.bind · _) h

theorem readAfterMnemonic_sendcrc {cs number : List Char} {x : List Octet} {p : Fraction}
    (hx : readText cs = some (x, ',' :: ' ' :: number)) (hp : readFraction number = some (p, [])) :
    readAfterMnemonic ['S', 'E', 'N', 'D', 'C', 'R', 'C'] cs = some (expandSendcrc x p) := by
  have hcomma : readComma (',' :: ' ' :: number) = some number := readComma_blank (startsNonBlank_of_readFraction hp)
  simp [readAfterMnemonic, hx, hcomma, hp, endLine, lineEnds, skipBlanks]

theorem readAfterMnemonic_sendham {cs number : List Char} {x : List Octet} {k : Operand36} {p : Fraction}
    (hx : readText cs = some (x, ',' :: ' ' :: '0' :: 'x' :: (hexText 9 k.toNat ++ ',' :: ' ' :: number)))
    (hp : readFraction number = some (p, [])) :
    readAfterMnemonic ['S', 'E', 'N', 'D', 'H', 'A', 'M'] cs = some (expandSendham x k p) := by
  have hsize := readOperand_hexText (digits := 9) rfl (by decide) k (endsDigits_comma (' ' :: number))
  have hcomma := readComma_blank (startsNonBlank_of_readFraction hp)
  have hcomma' := readComma_blank (startsNonBlank_cons ('x' :: (hexText 9 k.toNat ++ ',' :: ' ' :: number))
    (show '0' ≠ ' ' ∧ '0' ≠ '\t' by decide))
  simp [readAfterMnemonic, hx, hcomma', hsize, hcomma, hp, endLine, lineEnds, skipBlanks]

theorem expandSendcrc_eq (x : List Octet) (p : Fraction) :
    expandSendcrc x p =
      [Instr.clr] ++ x.map Instr.putb ++ [Instr.enccrc, Instr.noise (noisepThreshold p), Instr.frame] := by
  simp [expandSendcrc, expandPuts, expandNoisep]

theorem expandSendham_eq (x : List Octet) (k : Operand36) (p : Fraction) :
    expandSendham x k p =
      [Instr.clr] ++ x.map Instr.putb ++ [Instr.encham k, Instr.noise (noisepThreshold p), Instr.frame] := by
  simp [expandSendham, expandPuts, expandNoisep]

/-! ### Running the commands a host presents (R90, R259) -/

theorem run_succ_of_step {n : Nat} {s t : State} (h : step s = .next t) :
    Sys2Proof.core.run (n + 1) s = Sys2Proof.core.run n t := by
  change Sys2Proof.core.step s = .next t at h
  simp only [Host.Core.run, h]

/-- The first of some presented commands is performed, and the run goes on from the state it gives. -/
theorem run_presentAll_cons {n : Nat} {s t : State} {i : Instr} {commands : List Instr} {rest : List PortCycle}
    (hp : s.port = presentAll (i :: commands) ++ rest)
    (h : exec i { s with port := presentAll commands ++ rest } = .next t) :
    Sys2Proof.core.run (n + 1) s = Sys2Proof.core.run n t :=
  run_succ_of_step ((step_of_decoded hp rfl rfl (decode_encode i)).trans h)

theorem exec_in_fault {i : Instr} {s : State} (hs : s.fsm = .fault) (hi : i ≠ .clr) : exec i s = .next s := by
  rw [exec_eq_perform, perform_ign _ ((legality_eq_ign_iff i s.fsm).2 ⟨hs, hi⟩)]

theorem exec_encoder_in_idle {i : Instr} {s : State} (hs : s.fsm = .idle) (hi : emptyEntry .idle i = true) :
    exec i s = .next (raiseError .emptyMessage s) := by
  rw [exec_eq_perform, perform_empty _ ((legality_eq_empty_iff i s.fsm).2 (hs ▸ hi))]

/-- In `Fault` every command but `CLR` is ignored (R291). -/
theorem run_presentAll_in_fault {s : State} {commands : List Instr} {rest : List PortCycle} (hs : s.fsm = .fault)
    (hclr : .clr ∉ commands) (hp : s.port = presentAll commands ++ rest) :
    Sys2Proof.core.run commands.length s = .next { s with port := rest } := by
  induction commands generalizing s with
  | nil => exact congrArg _ (by rw [← (show s.port = rest from hp)])
  | cons i commands ih =>
    obtain ⟨hi, hclr⟩ := not_or.1 (mt List.mem_cons.2 hclr)
    rw [List.length_cons, run_presentAll_cons hp (exec_in_fault hs (Ne.symm hi))]
    exact ih hs hclr rfl

/-- An encoder right after `CLR` finds no message: R285's EmptyMessage, and the rest of the commands are ignored. -/
theorem run_encoder_after_clr {s : State} {i : Instr} {commands : List Instr} {rest : List PortCycle}
    (hi : emptyEntry .idle i = true) (hclr : .clr ∉ commands)
    (hp : s.port = presentAll (.clr :: i :: commands) ++ rest) :
    Sys2Proof.core.run (commands.length + 2) s =
      .next { raiseError .emptyMessage (clearRun s) with port := rest } := by
  rw [run_presentAll_cons hp (exec_clr _), run_presentAll_cons rfl (exec_encoder_in_idle rfl hi),
    run_presentAll_in_fault rfl hclr rfl]
  rfl

/-- Settles O60: a command's line by its mnemonic and its number, a pseudo-command's by its mnemonic, its text and its
fraction; and without a text the encoder comes right after `CLR`. -/
theorem renderedLineAssembles : Obligations.RenderedLineAssembles := by
  refine ⟨assembleLine_renderLine, ?lines,
    fun x p k => ⟨rfl, rfl, rfl, expandSendcrc_eq x p, expandSendham_eq x k p⟩, ?emptyText⟩
  case lines =>
    intro text htext x quoted
    refine ⟨assembleLine_quoted rfl (isMnemonic_of_all rfl) htext fun _ => readAfterMnemonic_puts,
      assembleLine_quoted rfl (isMnemonic_of_all rfl) htext fun _ => readAfterMnemonic_putbits, ?_⟩
    intro number p k hp T
    refine ⟨?noisep, ?sendcrc, ?sendham⟩
    case noisep =>
      exact assembleLine_eq_some rfl (isMnemonic_of_all rfl) (startsNonBlank_of_readFraction hp)
        (readAfterMnemonic_noisep hp)
    case sendcrc =>
      rw [← expandSendcrc_eq]
      exact assembleLine_quoted (by simp [quoted]) (isMnemonic_of_all rfl) htext fun _ hx =>
        readAfterMnemonic_sendcrc hx hp
    case sendham =>
      rw [← expandSendham_eq]
      exact assembleLine_quoted (by simp [quoted]) (isMnemonic_of_all rfl) htext fun _ hx =>
        readAfterMnemonic_sendham hx hp
  case emptyText =>
    intro s p k rest hport
    refine ⟨{ raiseError .emptyMessage (clearRun s) with port := rest }, ?_, rfl, rfl, rfl, rfl⟩
    obtain hcrc | hham := hport
    · exact run_encoder_after_clr (i := .enccrc) rfl (by simp [expandNoisep]) hcrc
    · exact run_encoder_after_clr (i := .encham k) rfl (by simp [expandNoisep]) hham

end Sys2Proof.Machine
end

section
/-! PROOFS of `spec/40_bitconverter.md`: octets to bits and back (R130 to R132), and the whole behaviour of `PUTB`,
`PUTSYM` and `DECB` (R133 to R135).

The conversions rest on what the bits of an octet are by index. The three commands have the same row in the table of
R252, so what they do is said once as far as the row goes; then each command's pseudocode has one lemma for every way
it ends. A run that loads some octets is an induction over them, from any state in which a message may be loaded. -/

namespace Sys2Proof.Machine

open Sys2Proof.Laws

/-! ### The conversions by index (R130, R131) -/

theorem octetBits_getElem? (b : Octet) {i : Nat} (hi : i < 8) : (octetBits b)[i]? = some (b.getLsbD (7 - i)) := by
  simp [octetBits, hi]

theorem bytesToBits_getElem? (x : List Octet) (j : Nat) {i : Nat} (hi : i < 8) :
    (bytesToBits x)[8 * j + i]? = (x[j]?).map fun b => b.getLsbD (7 - i) := by
  induction x generalizing j with
  | nil => rfl
  | cons a x ih =>
    rw [bytesToBits_cons]
    cases j with
    | zero =>
      rw [Nat.mul_zero, Nat.zero_add, List.getElem?_append_left (by simpa using hi), octetBits_getElem? a hi]
      rfl
    | succ j =>
      have hafter : 8 * (j + 1) + i = (octetBits a).length + (8 * j + i) := by rw [octetBits_length]; omega
      rw [hafter, List.getElem?_append_right (Nat.le_add_right _ _), Nat.add_sub_cancel_left, ih,
        List.getElem?_cons_succ]

/-- Settles O32: the length, and `bytesToBits_getElem?` by induction on the octets. -/
theorem bytesToBitsByIndex : Obligations.BytesToBitsByIndex :=
  fun x => ⟨bytesToBits_length x, fun j _ => bytesToBits_getElem? x j⟩

/-- A sequence of whole octets has octets, as many as its length allows, and it is their bits. -/
theorem exists_bitsToBytes {X : Bits} (h : X.length % 8 = 0) :
    ∃ y, bitsToBytes X = some y ∧ y.length = X.length / 8 ∧ bytesToBits y = X :=
  have hy := bitsToBytes_eq_some h
  ⟨_, hy, octetGroups_length _ X, bytesToBits_of_bitsToBytes hy⟩

/-- Settles O33: `X` is the bits of the octets made from it, so its elements are theirs by R130. -/
theorem bitsToBytesByIndex : Obligations.BitsToBytesByIndex := by
  refine fun X => ⟨bitsToBytes_eq_none, fun h => ?_⟩
  obtain ⟨y, hy, hlen, hX⟩ := exists_bitsToBytes h
  exact ⟨y, hy, hlen, fun j i hi => hX ▸ bytesToBits_getElem? y j hi⟩

/-! ### The round trips (R132) -/

/-- No two octets have the same bits, since every bit stands at an index. -/
theorem octetBits_injective : Function.Injective octetBits := by
  intro b c h
  refine BitVec.eq_of_getLsbD_eq fun i hi => ?_
  have hbit := congrArg (·[7 - i]?) h
  have hback : 7 - (7 - i) = i := by omega
  simpa only [octetBits_getElem? _ (show 7 - i < 8 by omega), hback, Option.some.injEq] using hbit

theorem bytesToBits_injective : Function.Injective bytesToBits := by
  intro x y h
  have hlen : x.length = y.length := by
    have := congrArg List.length h
    rw [bytesToBits_length, bytesToBits_length] at this
    omega
  induction x generalizing y with
  | nil => exact (List.eq_nil_of_length_eq_zero hlen.symm).symm
  | cons a x ih =>
    cases y with
    | nil => cases hlen
    | cons b y =>
      obtain ⟨hfirst, hrest⟩ := List.append_inj h (by simp)
      rw [octetBits_injective hfirst, ih hrest (Nat.succ.inj hlen)]

/-- The octets made from the bits of `x` have those bits, and only `x` does. -/
theorem bitsToBytes_bytesToBits (x : List Octet) : bitsToBytes (bytesToBits x) = some x := by
  obtain ⟨y, hy, -, hbits⟩ := exists_bitsToBytes (X := bytesToBits x) (by simp)
  rw [hy, bytesToBits_injective hbits]

/-- Settles O34: the first half by the injectivity of `bytesToBits`, the second by `bytesToBits_of_bitsToBytes`. -/
theorem bytesAndBitsRoundTrip : Obligations.BytesAndBitsRoundTrip := by
  refine ⟨bitsToBytes_bytesToBits, fun X h => ?_⟩
  obtain ⟨y, hy, -, hX⟩ := exists_bitsToBytes h
  exact ⟨y, hy, hX⟩

/-! ### The word of a command and its row of the table (R90, R252) -/

theorem encode_toNat {i : Instr} {op v : Nat} (hop : i.opcode = op) (hv : i.operand = v) :
    (encode i).toNat = op * 0x1000000000 + v := by
  obtain ⟨-, -, hword, hfield⟩ := encodedWord i
  rw [← hop, ← hv, ← hword, ← hfield, EncodedWord.opcodeOf_eq_div, EncodedWord.operandField_eq_mod]
  omega

theorem exec_of_done {i : Instr} {s t : State} (hl : legality i s.fsm = .ok) (hb : commandBody i s = .ok t) :
    exec i s = .next t := by
  rw [exec_eq_perform, perform_done hl hb]

theorem exec_of_raises {i : Instr} {s : State} {e : ErrKind} (hl : legality i s.fsm = .ok)
    (hb : commandBody i s = .error e) : exec i s = .next (raiseError e s) := by
  rw [exec_eq_perform, perform_raises hl hb]

theorem exec_of_seqEntry {i : Instr} {s : State} (h : seqEntry s.fsm i = true) :
    exec i s = .next (raiseError .sequenceError s) := by
  rw [exec_eq_perform, perform_seq _ ((legality_eq_seq_iff i s.fsm).2 h)]

/-- The commands of the BitConverter unit. -/
def IsMessageCommand (i : Instr) : Prop := (∃ b, i = .putb b) ∨ (∃ b, i = .putsym b) ∨ i = .decb

theorem isMessageCommand_putb (b : Octet) : IsMessageCommand (.putb b) := .inl ⟨b, rfl⟩

theorem isMessageCommand_putsym (b : Octet) : IsMessageCommand (.putsym b) := .inr (.inl ⟨b, rfl⟩)

theorem isMessageCommand_decb : IsMessageCommand .decb := .inr (.inr rfl)

/-- Every command of the unit has the row of `DECB`. -/
theorem legality_messageCommand {i : Instr} (hi : IsMessageCommand i) (f : Fsm) :
    legality i f = legality .decb f := by
  obtain ⟨b, rfl⟩ | ⟨b, rfl⟩ | rfl := hi <;> rfl

theorem legality_messageCommand_of_loading {i : Instr} (hi : IsMessageCommand i) {f : Fsm}
    (hf : f = .idle ∨ f = .messageLoaded) : legality i f = .ok := by
  rw [legality_messageCommand hi]
  obtain rfl | rfl := hf <;> rfl

/-- Once there is a frame the message is closed. -/
theorem exec_messageCommand_after_encoding {i : Instr} (hi : IsMessageCommand i) {s : State}
    (hs : s.fsm = .encoded ∨ s.fsm = .noised ∨ s.fsm = .framed) :
    exec i s = .next (raiseError .sequenceError s) := by
  refine exec_of_seqEntry ((legality_eq_seq_iff i s.fsm).1 ?_)
  rw [legality_messageCommand hi]
  obtain hs | hs | hs := hs <;> rw [hs] <;> rfl

theorem exec_messageCommand_in_fault {i : Instr} (hi : IsMessageCommand i) {s : State} (hs : s.fsm = .fault) :
    exec i s = .next s :=
  exec_in_fault hs (by obtain ⟨b, rfl⟩ | ⟨b, rfl⟩ | rfl := hi <;> simp)

/-! ### The pseudocode of `PUTB`, `PUTSYM` and `DECB`, outcome by outcome (R133 to R135) -/

theorem fits_of_fits_of_le {cap : Option Nat} {m n : Nat} (hn : fits cap n) (hmn : m ≤ n) : fits cap m :=
  fun c hc => hmn.trans (hn c hc)

theorem putbBody_of_fits (b : Octet) {s : State} (h : fits s.cap (s.M.length + 8)) :
    putbBody b s = .ok { s with M := s.M ++ octetBits b, msgLen := s.msgLen + 1, fsm := .messageLoaded } := by
  simp [putbBody, memAppend, (exceedsCap_eq_false_iff _ _).2 h]

theorem putbBody_of_not_fits (b : Octet) {s : State} (h : ¬ fits s.cap (s.M.length + 8)) :
    putbBody b s = .error .capacityExceeded := by
  simp [putbBody, (exceedsCap_eq_true_iff_not_fits _ _).2 h]

theorem symbolBit_eq_some_false {b : Octet} (h : b.toNat = 0x30) : symbolBit b = some false := by
  rw [show b = 0x30#8 from BitVec.eq_of_toNat_eq h]; rfl

theorem symbolBit_eq_some_true {b : Octet} (h : b.toNat = 0x31) : symbolBit b = some true := by
  rw [show b = 0x31#8 from BitVec.eq_of_toNat_eq h]; rfl

theorem symbolBit_eq_none {b : Octet} (h0 : b.toNat ≠ 0x30) (h1 : b.toNat ≠ 0x31) : symbolBit b = none := by
  rw [symbolBit, if_neg (by rintro rfl; exact h0 rfl), if_neg (by rintro rfl; exact h1 rfl)]

theorem putsymBody_of_fits {b : Octet} {v : Bit} {s : State} (hv : symbolBit b = some v)
    (h : fits s.cap (s.M.length + 1)) : putsymBody b s = .ok { s with M := s.M ++ [v], fsm := .messageLoaded } := by
  simp [putsymBody, memAppend, hv, (exceedsCap_eq_false_iff _ _).2 h]

theorem putsymBody_of_not_symbol {b : Octet} (hb : symbolBit b = none) (s : State) :
    putsymBody b s = .error .invalidSymbol := by
  simp [putsymBody, hb]

theorem putsymBody_of_not_fits {b : Octet} {v : Bit} {s : State} (hv : symbolBit b = some v)
    (h : ¬ fits s.cap (s.M.length + 1)) : putsymBody b s = .error .capacityExceeded := by
  simp [putsymBody, hv, (exceedsCap_eq_true_iff_not_fits _ _).2 h]

theorem decbBody_of_octets {s : State} {y : List Octet} (h : bitsToBytes s.M = some y) :
    decbBody s = .ok { s with B := y } := by
  simp [decbBody, h]

theorem decbBody_of_not_octets {s : State} (h : s.M.length % 8 ≠ 0) : decbBody s = .error .malformedInput := by
  simp [decbBody, bitsToBytes_eq_none h]

/-! ### Loading octets one after another (R133) -/

/-- The state after the octets of `x` are loaded. -/
def loadOctets (x : List Octet) (s : State) : State :=
  { s with
    M := s.M ++ bytesToBits x, msgLen := s.msgLen + x.length, fsm := if x = [] then s.fsm else .messageLoaded }

theorem loadOctets_nil (s : State) : loadOctets [] s = s := by simp [loadOctets]

theorem loadOctets_of_idle (x : List Octet) {s : State} (hs : s.fsm = .idle) (hM : s.M = []) :
    loadOctets x s = { s with
      M := bytesToBits x, msgLen := s.msgLen + x.length, fsm := if x = [] then .idle else .messageLoaded } := by
  rw [loadOctets, hs, hM, List.nil_append]

/-- The first octet is loaded, then the others. -/
theorem loadOctets_cons (b : Octet) (x : List Octet) (s : State) :
    loadOctets (b :: x) s = loadOctets x (loadOctets [b] s) := by
  simp only [loadOctets, bytesToBits_cons, bytesToBits_nil]
  simp [Nat.add_assoc, Nat.add_comm 1]

theorem exec_putb_of_fits (b : Octet) {s : State} (hs : s.fsm = .idle ∨ s.fsm = .messageLoaded)
    (h : fits s.cap (s.M.length + 8)) : exec (.putb b) s = .next (loadOctets [b] s) := by
  rw [exec_of_done (legality_messageCommand_of_loading (isMessageCommand_putb b) hs) (putbBody_of_fits b h)]
  simp [loadOctets]

/-- Presenting `PUTB` of each octet of `x` and then further commands: the run goes on with those. -/
theorem run_putb {x : List Octet} {s : State} {n : Nat} {commands : List Instr} {rest : List PortCycle}
    (hs : s.fsm = .idle ∨ s.fsm = .messageLoaded) (hfits : fits s.cap (s.M.length + 8 * x.length))
    (hp : s.port = presentAll (x.map .putb ++ commands) ++ rest) :
    Sys2Proof.core.run (x.length + n) s =
      Sys2Proof.core.run n (loadOctets x { s with port := presentAll commands ++ rest }) := by
  induction x generalizing s with
  | nil => rw [loadOctets_nil, List.length_nil, Nat.zero_add, ← (show s.port = presentAll commands ++ rest from hp)]
  | cons b x ih =>
    rw [List.length_cons, Nat.add_right_comm, loadOctets_cons]
    have hroom : fits s.cap (s.M.length + 8) := fits_of_fits_of_le hfits (by simp)
    rw [run_presentAll_cons hp (exec_putb_of_fits b hs hroom)]
    exact ih (.inr rfl) (fits_of_fits_of_le hfits (by simp [loadOctets]; omega)) rfl

theorem run_putb_from_idle {x : List Octet} {s : State} {n : Nat} {commands : List Instr} {rest : List PortCycle}
    (hs : s.fsm = .idle) (hM : s.M = []) (hfits : fits s.cap (8 * x.length))
    (hp : s.port = presentAll (x.map .putb ++ commands) ++ rest) :
    Sys2Proof.core.run (x.length + n) s = Sys2Proof.core.run n { s with
      M := bytesToBits x, msgLen := s.msgLen + x.length, fsm := if x = [] then .idle else .messageLoaded,
      port := presentAll commands ++ rest } :=
  (run_putb (.inl hs) (by simpa [hM] using hfits) hp).trans
    (congrArg (Sys2Proof.core.run n) (loadOctets_of_idle x hs hM))

/-- Settles O14: the run is `run_putb_from_idle` with nothing after it; the clauses are the row of the table and the two
ends of `putbBody`. -/
theorem putbAppendsOctet : Obligations.PutbAppendsOctet := by
  refine ⟨fun x s rest hs hM hlen hfits hp => ?run, fun b s => ?clauses⟩
  case run =>
    have hrun := run_putb_from_idle (n := 0) (commands := []) hs hM hfits (by simpa using hp)
    rw [hlen, Nat.zero_add] at hrun
    exact hrun
  case clauses =>
    have hi := isMessageCommand_putb b
    refine ⟨encode_toNat (op := 2) rfl rfl, fun hs h => ?fits, fun hs h => ?full,
      exec_messageCommand_after_encoding hi, exec_messageCommand_in_fault hi⟩
    case fits =>
      rw [← octetBits_eq]
      exact exec_of_done (legality_messageCommand_of_loading hi hs) (putbBody_of_fits b h)
    case full => exact exec_of_raises (legality_messageCommand_of_loading hi hs) (putbBody_of_not_fits b h)

/-! ### Loading symbols (R134) -/

/-- `PUTB` either leaves the message as it is or appends 8 bits. -/
theorem putb_M_length {b : Octet} {s t : State} (h : exec (.putb b) s = .next t) :
    t.M.length = s.M.length ∨ t.M.length = s.M.length + 8 := by
  obtain ⟨e, f, rfl⟩ | hb := exec_writes_errAndFsm_or_commandBody h
  · exact .inl rfl
  · right
    by_cases hfits : fits s.cap (s.M.length + 8)
    · cases (putbBody_of_fits b hfits).symm.trans hb
      simp
    · cases (putbBody_of_not_fits b hfits).symm.trans hb

/-- What else writes `M` adds a whole octet or clears it. -/
theorem putsym_of_broken_octets {i : Instr} {s t : State} (h : exec i s = .next t) (hs : s.M.length % 8 = 0)
    (ht : t.M.length % 8 ≠ 0) : ∃ b, i = .putsym b := by
  obtain ⟨hM, -⟩ := onlyListedCommandsWriteState i s t h
  obtain ⟨b, rfl⟩ | hsym | rfl := hM (by rintro hM; exact ht (hM ▸ hs))
  · have := putb_M_length h
    omega
  · exact hsym
  · cases (exec_clr s).symm.trans h
    simp at ht

/-- Settles O15: only a symbol breaks the octets of `M`; the clauses are the row of the table and the ends of
`putsymBody`, the symbol before the capacity. -/
theorem putsymAppendsSymbol : Obligations.PutsymAppendsSymbol := by
  refine ⟨fun i s t => putsym_of_broken_octets, fun b s => ?_⟩
  have hi := isMessageCommand_putsym b
  refine ⟨encode_toNat (op := 3) rfl rfl, fun hs h h0 => ?zero, fun hs h h1 => ?one,
    fun hs h0 h1 => ?noSymbol, fun hs h hsym => ?full,
    exec_messageCommand_after_encoding hi, exec_messageCommand_in_fault hi⟩
  case zero =>
    exact exec_of_done (legality_messageCommand_of_loading hi hs) (putsymBody_of_fits (symbolBit_eq_some_false h0) h)
  case one =>
    exact exec_of_done (legality_messageCommand_of_loading hi hs) (putsymBody_of_fits (symbolBit_eq_some_true h1) h)
  case noSymbol =>
    have hnone := symbolBit_eq_none h0 h1
    exact exec_of_raises (legality_messageCommand_of_loading hi hs) (putsymBody_of_not_symbol hnone s)
  case full =>
    obtain ⟨v, hv⟩ : ∃ v, symbolBit b = some v :=
      hsym.elim (fun h0 => ⟨false, symbolBit_eq_some_false h0⟩) fun h1 => ⟨true, symbolBit_eq_some_true h1⟩
    exact exec_of_raises (legality_messageCommand_of_loading hi hs) (putsymBody_of_not_fits hv h)

/-! ### Turning the message back into octets (R135) -/

theorem exec_decb_of_octets {s : State} {y : List Octet} (hs : s.fsm = .idle ∨ s.fsm = .messageLoaded)
    (h : bitsToBytes s.M = some y) : exec .decb s = .next { s with B := y } :=
  exec_of_done (legality_messageCommand_of_loading isMessageCommand_decb hs) (decbBody_of_octets h)

/-- Settles O16: the octets are those of R131; the run loads `x` by `run_putb_from_idle`, and `DECB` then gives `x` back
by the round trip of R132. -/
theorem decbFillsOctetBuffer : Obligations.DecbFillsOctetBuffer := by
  have hi := isMessageCommand_decb
  refine ⟨encode_toNat (op := 4) rfl rfl, fun x s rest hs hM hfits hp => ?run, fun s =>
    ⟨fun hs h => ?octets, fun hs h => ?malformed,
      exec_messageCommand_after_encoding hi, exec_messageCommand_in_fault hi⟩⟩
  case run =>
    rw [run_putb_from_idle hs hM hfits hp]
    refine run_presentAll_cons (commands := []) rfl (exec_decb_of_octets ?_ (bitsToBytes_bytesToBits x))
    by_cases hx : x = [] <;> simp [hx]
  case octets =>
    obtain ⟨y, hy, hlen, hbits⟩ := exists_bitsToBytes h
    exact ⟨y, hlen, hbits, exec_decb_of_octets hs hy⟩
  case malformed =>
    exact exec_of_raises (legality_messageCommand_of_loading hi hs) (decbBody_of_not_octets h)

end Sys2Proof.Machine
end

section
/-! PROOFS of `spec/41_crc32.md`: the gates of `crc_step` and its linearity (R151 to R153), the residue of a frame
(R160), and the whole behaviour of `ENCCRC` (R157, R159).

One shift is an XOR of two parts, the shifted register and the polynomial under the feedback, and both are linear. The
residue follows from that: a register that is fed its own bits, top first, never sees a feedback and ends at zero, so
the checksum takes the message's part out of the register. -/

namespace Sys2Proof.Machine

open Sys2Proof.Laws

/-! ### One shift of the register (R151 to R153) -/

/-- What reaches the tapped stages: the polynomial when there is feedback. -/
def feedbackMask (fb : Bit) : Word32 := if fb then crcPoly else 0x00000000#32

theorem crcStep_eq_xor (R : Word32) (b : Bit) :
    crcStep R b = (R <<< 1) ^^^ feedbackMask (Bool.xor (R.getLsbD 31) b) := by
  unfold crcStep feedbackMask
  cases Bool.xor (R.getLsbD 31) b
  · exact BitVec.xor_zero.symm
  · rfl

theorem feedbackMask_xor (p q : Bit) : feedbackMask (Bool.xor p q) = feedbackMask p ^^^ feedbackMask q := by
  cases p <;> cases q <;> rfl

theorem crcStep_xor (R₁ R₂ : Word32) (b₁ b₂ : Bit) :
    crcStep (R₁ ^^^ R₂) (Bool.xor b₁ b₂) = crcStep R₁ b₁ ^^^ crcStep R₂ b₂ := by
  have hfeedback : Bool.xor ((R₁ ^^^ R₂).getLsbD 31) (Bool.xor b₁ b₂) =
      Bool.xor (Bool.xor (R₁.getLsbD 31) b₁) (Bool.xor (R₂.getLsbD 31) b₂) := by
    simp only [BitVec.getLsbD_xor, Bool.xor_assoc, Bool.xor_left_comm]
  simp only [crcStep_eq_xor]
  rw [hfeedback, feedbackMask_xor, BitVec.shiftLeft_xor_distrib]
  ac_rfl

/-- The stages above stage 0 that have an XOR gate (R151). -/
def crcTaps : List Nat := [1, 2, 4, 5, 7, 8, 10, 11, 12, 16, 22, 23, 26]

theorem crcPoly_getLsbD {j : Nat} (hj : j < 32) : crcPoly.getLsbD j = decide (j ∈ 0 :: crcTaps) := by
  revert j
  decide

theorem feedbackMask_getLsbD (fb : Bit) {j : Nat} (hj : j < 32) :
    (feedbackMask fb).getLsbD j = (fb && decide (j ∈ 0 :: crcTaps)) := by
  rw [← crcPoly_getLsbD hj]
  cases fb
  · exact BitVec.getLsbD_zero
  · exact (Bool.true_and _).symm

theorem crcStep_getLsbD_zero (R : Word32) (b : Bit) : (crcStep R b).getLsbD 0 = Bool.xor (R.getLsbD 31) b := by
  rw [crcStep_eq_xor, BitVec.getLsbD_xor, feedbackMask_getLsbD _ (by omega)]
  simp

theorem getLsbD_shiftLeft_of_le (R : Word32) {n j : Nat} (hn : n ≤ j) (hj : j < 32) :
    (R <<< n).getLsbD j = R.getLsbD (j - n) := by
  rw [BitVec.getLsbD_shiftLeft]
  simp only [hj, Nat.not_lt.2 hn, decide_true, decide_false, Bool.not_false, Bool.true_and]

theorem crcStep_getLsbD_of_pos (R : Word32) (b : Bit) {j : Nat} (hpos : 1 ≤ j) (hj : j < 32) :
    (crcStep R b).getLsbD j =
      if j ∈ crcTaps then Bool.xor (R.getLsbD (j - 1)) (Bool.xor (R.getLsbD 31) b) else R.getLsbD (j - 1) := by
  have hj0 : j ≠ 0 := by omega
  rw [crcStep_eq_xor, BitVec.getLsbD_xor, feedbackMask_getLsbD _ hj, getLsbD_shiftLeft_of_le R hpos hj]
  by_cases htap : j ∈ crcTaps <;> simp [htap, hj0]

/-- Settles O35: one shift is the shifted register XOR the taps under the feedback, both linear. -/
theorem crcStepAsGates : Obligations.CrcStepAsGates :=
  ⟨fun R b => ⟨crcStep_getLsbD_zero R b, fun _ => crcStep_getLsbD_of_pos R b⟩, crcStep_xor⟩

/-! ### The residue (R160) -/

/-- An input bit at its place in the register. -/
def inputMask (b : Bit) : Word32 := if b then 0x80000000#32 else 0x00000000#32

theorem crcStep_inputMask (b : Bit) : crcStep (inputMask b) b = 0x00000000#32 := by
  cases b <;> rfl

theorem crcStep_eq_crcStep_false (R : Word32) (b : Bit) : crcStep R b = crcStep (R ^^^ inputMask b) false := by
  rw [← Bool.xor_self b, crcStep_xor, crcStep_inputMask, BitVec.xor_zero]

/-- Folding is linear; the input goes with the second register. -/
theorem crcFold_xor (R₁ R₂ : Word32) (X : Bits) :
    crcFold (R₁ ^^^ R₂) X = crcFold R₁ (zeros X.length) ^^^ crcFold R₂ X := by
  induction X generalizing R₁ R₂ with
  | nil => rfl
  | cons b X ih =>
    have hzeros : zeros (b :: X).length = false :: zeros X.length := rfl
    rw [hzeros, crcFold_cons, crcFold_cons, crcFold_cons, ← ih, ← crcStep_xor, Bool.false_xor]

theorem crcStep_of_no_feedback {R : Word32} {b : Bit} (h : b = R.getLsbD 31) : crcStep R b = R <<< 1 := by
  rw [crcStep_eq_xor, h, Bool.xor_self]
  exact BitVec.xor_zero

/-- A register fed its own bits from the top has no feedback: it only shifts. -/
theorem crcFold_own_bits (V : Word32) {n : Nat} (hn : n ≤ 32) :
    crcFold V ((List.range n).map fun i => V.getLsbD (31 - i)) = V <<< n := by
  induction n with
  | zero => exact (BitVec.shiftLeft_zero V).symm
  | succ n ih =>
    have htop : (V <<< n).getLsbD 31 = V.getLsbD (31 - n) := getLsbD_shiftLeft_of_le V (by omega) (by omega)
    rw [List.range_succ, List.map_append, crcFold_append, ih (by omega), BitVec.shiftLeft_add]
    exact crcStep_of_no_feedback htop.symm

theorem crcFold_toBits_self (V : Word32) : crcFold V (toBits V) = 0x00000000#32 :=
  (crcFold_own_bits V le_rfl).trans (BitVec.shiftLeft_eq_zero le_rfl)

/-- The constant is what 32 zero bits make of the seed. -/
theorem crcFold_crcInit_zeros : crcFold crcInit (zeros 32) = 0xC704DD7B#32 := by decide +kernel

theorem crcFold_appendChecksum (X : Bits) : crcFold crcInit (appendChecksum X) = 0xC704DD7B#32 := by
  have hbefore : crcFold crcInit X = crcInit ^^^ crc32Compute X := by
    rw [crc32Compute, BitVec.xor_comm, BitVec.xor_assoc, show crcXorOut ^^^ crcInit = 0#32 from rfl, BitVec.xor_zero]
  calc crcFold crcInit (appendChecksum X)
      = crcFold (crcInit ^^^ crc32Compute X) (toBits (crc32Compute X)) := by
        rw [appendChecksum, crcFold_append, hbefore]
    _ = crcFold crcInit (zeros 32) ^^^ crcFold (crc32Compute X) (toBits (crc32Compute X)) := by
        rw [crcFold_xor, toBits_length]
    _ = 0xC704DD7B#32 := by rw [crcFold_crcInit_zeros, crcFold_toBits_self, BitVec.xor_zero]

theorem crc32Compute_appendChecksum (X : Bits) : crc32Compute (appendChecksum X) = 0x38FB2284#32 := by
  rw [crc32Compute, crcFold_appendChecksum]
  rfl

/-- Settles O36: the register before the checksum is the seed XOR the checksum, and the checksum's own part shifts out
without a trace. -/
theorem crcResidueIsConstant : Obligations.CrcResidueIsConstant :=
  ⟨fun X => ⟨crcFold_appendChecksum X, crc32Compute_appendChecksum X⟩, crcStep_eq_crcStep_false⟩

/-! ### The encoders outside `MessageLoaded` (R252) -/

theorem emptyEntry_idle_iff (i : Instr) : emptyEntry .idle i = true ↔ i = .enccrc ∨ ∃ kop, i = .encham kop := by
  cases i <;> simp [emptyEntry]

/-- No encoder encodes twice. -/
theorem exec_encoder_after_encoding {i : Instr} (hi : emptyEntry .idle i = true) {s : State}
    (hs : s.fsm = .encoded ∨ s.fsm = .noised ∨ s.fsm = .framed) :
    exec i s = .next (raiseError .sequenceError s) := by
  refine exec_of_seqEntry ?_
  obtain rfl | ⟨kop, rfl⟩ := (emptyEntry_idle_iff i).1 hi <;> obtain hs | hs | hs := hs <;> rw [hs] <;> rfl

/-! ### `ENCCRC` (R157, R159) -/

theorem enccrcBody_of_fits {s : State} (h : fits s.cap (s.M.length + 32)) :
    enccrcBody s = .ok { s with
      crc := crc32Compute s.M, F := s.M ++ toBits (crc32Compute s.M), algo := .crc32, k := 0, r := 0, padBits := 0,
      fsm := .encoded } := by
  simp [enccrcBody, crc32Compute, (exceedsCap_eq_false_iff _ _).2 h]

theorem enccrcBody_of_not_fits {s : State} (h : ¬ fits s.cap (s.M.length + 32)) :
    enccrcBody s = .error .capacityExceeded := by
  simp [enccrcBody, (exceedsCap_eq_true_iff_not_fits _ _).2 h]

theorem exec_enccrc_of_fits {s : State} (hs : s.fsm = .messageLoaded) (h : fits s.cap (s.M.length + 32)) :
    exec .enccrc s = .next { s with
      crc := crc32Compute s.M, F := s.M ++ toBits (crc32Compute s.M), algo := .crc32, k := 0, r := 0, padBits := 0,
      fsm := .encoded } :=
  exec_of_done ((legality_enccrc_eq_ok_iff s.fsm).2 hs) (enccrcBody_of_fits h)

theorem exec_enccrc_of_not_fits {s : State} (hs : s.fsm = .messageLoaded) (h : ¬ fits s.cap (s.M.length + 32)) :
    exec .enccrc s = .next (raiseError .capacityExceeded s) :=
  exec_of_raises ((legality_enccrc_eq_ok_iff s.fsm).2 hs) (enccrcBody_of_not_fits h)

/-- Settles O17: the word, the two ends of `enccrcBody`, and the row of the table. -/
theorem enccrcMakesCrcFrame : Obligations.EnccrcMakesCrcFrame :=
  ⟨encode_toNat (op := 5) rfl rfl, fun _ => ⟨exec_enccrc_of_fits, exec_enccrc_of_not_fits,
    fun hs => exec_encoder_in_idle hs rfl, exec_encoder_after_encoding rfl, fun hs => exec_in_fault hs (by simp)⟩⟩

/-- Settles O38: the next state of `exec_enccrc_of_fits` is made of fields other than `crc`. -/
theorem crcForgetsOldRegister : Obligations.CrcForgetsOldRegister := by
  intro s v hs hfits
  rw [exec_enccrc_of_fits hs hfits]
  exact exec_enccrc_of_fits (s := { s with crc := v }) hs hfits

end Sys2Proof.Machine
end

section
/-! PROOFS of `spec/42_hamming.md`: sizing (R180, R181), the bit-position mapper (R183 to R185), the parity tree and its
order independence (R186, R187), the block invariant (R189), the stream (R190, R191), and the whole behaviour of
`ENCHAM` (R193).

Two enumerations carry the first half: up to position `dataPos d` the data positions are `dataPos 1` to `dataPos d`, and
up to position `k + r` the parity positions are `2^0` to `2^(r-1)`; as `k + r` is itself a data position, it is the
`k`-th. The second half rests on one fact about a group's XOR, how it changes when one bit of the block is written: a
parity position is in its own group and in no other. -/

namespace Sys2Proof.Machine

open Sys2Proof.Laws

/-! ### Sizing (R180) -/

/-- The search of R180 does not stop before the parity bits are enough, if they are enough within its fuel. -/
theorem redundancySearch_enough {k m : Nat} (hm : k + m + 1 ≤ 2 ^ m) {fuel r : Nat} (hr : r ≤ m)
    (hfuel : m ≤ r + fuel) : k + redundancySearch k fuel r + 1 ≤ 2 ^ redundancySearch k fuel r := by
  induction fuel generalizing r with
  | zero => rwa [redundancySearch, show r = m by omega]
  | succ fuel ih =>
    rw [redundancySearch]
    split
    · next htooFew =>
      have hne : r ≠ m := by rintro rfl; omega
      exact ih (by omega) (by omega)
    · next henough => omega

theorem redundancyFor_enough (k : Nat) : k + redundancyFor k + 1 ≤ 2 ^ redundancyFor k := by
  have hk : k < 2 ^ k := Nat.lt_two_pow_self
  exact redundancySearch_enough (m := k + 1) (by rw [pow_succ]; omega) (Nat.zero_le _) (by omega)

theorem two_pow_lt_of_lt_redundancyFor {k r : Nat} (h : r < redundancyFor k) : 2 ^ r < k + r + 1 := by
  by_contra henough
  exact absurd (redundancyFor_le_of_enough (Nat.le_of_not_lt henough)) (Nat.not_le.2 h)

/-- Settles O39: the search stops where the parity bits are enough, and passes no number that is. -/
theorem redundancyIsSmallest : Obligations.RedundancyIsSmallest :=
  fun k _ => ⟨redundancyFor_enough k, fun _ => two_pow_lt_of_lt_redundancyFor⟩

/-- The last parity position is inside the block of `k + redundancyFor k` positions (R184). -/
theorem two_pow_lt_block_of_lt_redundancyFor {k i : Nat} (h : i < redundancyFor k) :
    2 ^ i < k + redundancyFor k :=
  (two_pow_lt_of_lt_redundancyFor h).trans_le (by omega)

/-! ### Parity positions and data positions (R183) -/

theorem isPow2_iff (j : Nat) : isPow2 j = true ↔ ∃ e, j = 2 ^ e := by
  have h := Nat.ne_zero_and_sub_one_eq_zero_iff_isPowerOfTwo (n := j)
  simpa [isPow2, Nat.isPowerOfTwo] using h

theorem isPow2_two_pow (e : Nat) : isPow2 (2 ^ e) = true := (isPow2_iff _).2 ⟨e, rfl⟩

theorem isPow2_eq_false_of_between {j e : Nat} (hlo : 2 ^ e < j) (hhi : j < 2 ^ (e + 1)) : isPow2 j = false := by
  rw [Bool.eq_false_iff, Ne, isPow2_iff]
  rintro ⟨f, rfl⟩
  rw [Nat.pow_lt_pow_iff_right (by decide)] at hlo hhi
  omega

/-- No two positions past 2 in a row are powers of two. -/
theorem isPow2_succ_eq_false {j : Nat} (hj : 2 ≤ j) (h : isPow2 j = true) : isPow2 (j + 1) = false := by
  obtain ⟨e, rfl⟩ := (isPow2_iff j).1 h
  exact isPow2_eq_false_of_between (Nat.lt_succ_self _) (by rw [pow_succ]; omega)

theorem dataPos_succ (d : Nat) : dataPos (d + 1) = nextDataPos (dataPos d) := rfl

theorem dataPos_lt_succ (d : Nat) : dataPos d < dataPos (d + 1) := by
  rw [dataPos_succ, nextDataPos]
  split <;> omega

theorem dataPos_strictMono : StrictMono dataPos := strictMono_nat_of_lt_succ dataPos_lt_succ

theorem two_le_dataPos (d : Nat) : 2 ≤ dataPos d := dataPos_strictMono.monotone (Nat.zero_le d)

theorem isPow2_dataPos {d : Nat} (hd : 1 ≤ d) : isPow2 (dataPos d) = false := by
  obtain ⟨d, rfl⟩ := Nat.exists_eq_add_of_le' hd
  rw [dataPos_succ, nextDataPos]
  split
  · next hpow => exact isPow2_succ_eq_false (by have := two_le_dataPos d; omega) hpow
  · next hpow => simpa using hpow

/-- The positions up to the next data position are those up to `p`, perhaps a parity position, and that one. -/
theorem filter_not_isPow2_nextDataPos {p : Nat} (hp : 2 ≤ p) :
    ((List.range' 1 (nextDataPos p)).filter fun j => !isPow2 j) =
      ((List.range' 1 p).filter fun j => !isPow2 j) ++ [nextDataPos p] := by
  unfold nextDataPos
  by_cases hpow : isPow2 (p + 1) = true
  · have hnext : isPow2 (p + 2) = false := isPow2_succ_eq_false (by omega) hpow
    rw [if_pos hpow, List.range'_1_concat, List.range'_1_concat]
    simp [Nat.add_comm 1, hpow, hnext]
  · rw [if_neg hpow, List.range'_1_concat]
    simp [Nat.add_comm 1, hpow]

/-- The enumeration of R183: the data positions up to `dataPos d` are `dataPos 1`, ..., `dataPos d`. -/
theorem filter_not_isPow2_dataPos (d : Nat) :
    ((List.range' 1 (dataPos d)).filter fun j => !isPow2 j) = (List.range' 1 d).map dataPos := by
  induction d with
  | zero => rfl
  | succ d ih =>
    rw [dataPos_succ, filter_not_isPow2_nextDataPos (two_le_dataPos d), ih, List.range'_1_concat, List.map_append,
      Nat.add_comm 1 d]
    rfl

theorem exists_dataPos_eq {j : Nat} (hj : 1 ≤ j) (h : isPow2 j = false) : ∃ d, 1 ≤ d ∧ dataPos d = j := by
  have hmem : j ∈ (List.range' 1 (dataPos j)).filter fun j => !isPow2 j := by
    have := dataPos_strictMono.le_apply (x := j)
    simp only [List.mem_filter, List.mem_range'_1, h, Bool.not_false, and_true]
    omega
  rw [filter_not_isPow2_dataPos, List.mem_map] at hmem
  obtain ⟨d, hd, rfl⟩ := hmem
  exact ⟨d, (List.mem_range'_1.1 hd).1, rfl⟩

theorem dataPos_eq_add_parityPositions (d : Nat) :
    dataPos d = d + ((List.range' 1 (dataPos d)).filter fun j => isPow2 j).length := by
  have h := List.length_eq_length_filter_add (l := List.range' 1 (dataPos d)) fun j => isPow2 j
  rw [filter_not_isPow2_dataPos, List.length_map, List.length_range', List.length_range'] at h
  omega

/-! ### Counting (R184) -/

theorem filter_isPow2_of_lt {n r : Nat} (hin : ∀ i < r, 2 ^ i ≤ n) (hout : n < 2 ^ r) :
    ((List.range' 1 n).filter fun j => isPow2 j) = (List.range r).map (fun i => 2 ^ i) := by
  refine List.SortedLT.eq_of_mem_iff ((List.sortedLT_range' 1 n one_ne_zero).pairwise.filter _).sortedLT ?_ fun j => ?_
  · refine List.Pairwise.sortedLT (List.pairwise_map.2 (List.pairwise_lt_range.imp fun h => ?_))
    exact Nat.pow_lt_pow_right (by decide) h
  · simp only [List.mem_filter, List.mem_range'_1, List.mem_map, List.mem_range, isPow2_iff]
    constructor
    · rintro ⟨⟨-, hle⟩, e, rfl⟩
      exact ⟨e, (Nat.pow_lt_pow_iff_right (a := 2) (by decide)).1 (by omega), rfl⟩
    · rintro ⟨i, hi, rfl⟩
      have hpos := Nat.two_pow_pos i
      have hle := hin i hi
      exact ⟨by omega, i, rfl⟩

/-- The parity positions of a block: `2^r` is past its end, and every smaller power of two is inside. -/
theorem filter_isPow2_block (k : Nat) :
    ((List.range' 1 (k + redundancyFor k)).filter fun j => isPow2 j) =
      (List.range (redundancyFor k)).map (fun i => 2 ^ i) :=
  filter_isPow2_of_lt (fun _ hi => (two_pow_lt_block_of_lt_redundancyFor hi).le) (redundancyFor_enough k)

theorem isPow2_block {k : Nat} (hk : 1 ≤ k) : isPow2 (k + redundancyFor k) = false := by
  obtain ⟨r, hr⟩ := Nat.exists_eq_add_of_le' (redundancyFor_pos hk)
  have henough := redundancyFor_enough k
  have hlast := two_pow_lt_block_of_lt_redundancyFor (k := k) (i := r) (by omega)
  rw [hr] at henough hlast ⊢
  exact isPow2_eq_false_of_between hlast henough

/-- The last position of a block is a data position, and with `r` parity positions before it, it is the `k`-th. -/
theorem dataPos_eq_add_redundancyFor {k : Nat} (hk : 1 ≤ k) : dataPos k = k + redundancyFor k := by
  obtain ⟨d, -, hd⟩ := exists_dataPos_eq (by omega) (isPow2_block hk)
  have hcount := dataPos_eq_add_parityPositions d
  rw [hd, filter_isPow2_block, List.length_map, List.length_range] at hcount
  rw [← hd, show d = k by omega]

theorem filter_not_isPow2_block {k : Nat} (hk : 1 ≤ k) :
    ((List.range' 1 (k + redundancyFor k)).filter fun j => !isPow2 j) = (List.range' 1 k).map dataPos := by
  rw [← dataPos_eq_add_redundancyFor hk, filter_not_isPow2_dataPos]

/-- Settles O42: both enumerations of the block's positions, and its last position. -/
theorem blockHasRParityAndKDataPositions : Obligations.BlockHasRParityAndKDataPositions :=
  fun k hk => ⟨filter_isPow2_block k, filter_not_isPow2_block hk, dataPos_eq_add_redundancyFor hk⟩

/-! ### The table of R181 -/

/-- Where some number of parity bits is enough, so is every larger one. -/
theorem redundancy_enough_of_le {k m r : Nat} (hmr : m ≤ r) (hm : k + m + 1 ≤ 2 ^ m) : k + r + 1 ≤ 2 ^ r := by
  induction r, hmr using Nat.le_induction with
  | base => exact hm
  | succ r _ ih => rw [pow_succ]; omega

theorem redundancyFor_eq {k r : Nat} (hlo : 2 ^ r < k + r + 1) (hhi : k + (r + 1) + 1 ≤ 2 ^ (r + 1)) :
    redundancyFor k = r + 1 := by
  refine le_antisymm (redundancyFor_le_of_enough hhi) (Nat.lt_of_not_le fun hle => ?_)
  exact absurd (redundancy_enough_of_le hle (redundancyFor_enough k)) (Nat.not_le.2 hlo)

theorem redundancyFor_table {k : Nat} (hk : 1 ≤ k) (hk' : k ≤ 64) :
    redundancyFor k = if k = 1 then 2 else if k ≤ 4 then 3 else if k ≤ 11 then 4 else if k ≤ 26 then 5
      else if k ≤ 57 then 6 else 7 := by
  split_ifs <;> exact redundancyFor_eq (by omega) (by omega)

/-- Settles O40: the table by the two bounds that determine `r`; a block ends at a data position. -/
theorem redundancyTable : Obligations.RedundancyTable :=
  fun _ hk hk' => ⟨redundancyFor_table hk hk', isPow2_block hk⟩

/-- Settles O41: the enumeration of the data positions gives all but the closed form, which is the table of R181 read at
the last position of a block of `d` data bits. -/
theorem dataPositionsSkipPowersOfTwo : Obligations.DataPositionsSkipPowersOfTwo := by
  refine ⟨fun j _ => isPow2_iff j, fun d hd => ⟨isPow2_dataPos hd, dataPos_lt_succ d⟩, fun j => exists_dataPos_eq,
    fun d _ => dataPos_eq_add_parityPositions d, fun d hd hd' => ?_⟩
  rw [dataPos_eq_add_redundancyFor hd, redundancyFor_table hd hd']

/-! ### Placement (R185) -/

/-- The bit at position `j` of a sequence whose positions are 1-based (R9). -/
def bitAt (X : Bits) (j : Nat) : Bit := X.getD (j - 1) false

theorem bitAt_eq_of_getElem? {X : Bits} {j : Nat} {b : Bit} (h : X[j - 1]? = some b) : bitAt X j = b := by
  rw [bitAt, List.getD_eq_getElem?_getD, h, Option.getD_some]

theorem getElem?_eq_bitAt {X : Bits} {j : Nat} (hj : 1 ≤ j) (h : j ≤ X.length) : X[j - 1]? = some (bitAt X j) := by
  have hlt : j - 1 < X.length := by omega
  rw [bitAt, List.getD_eq_getElem _ _ hlt, List.getElem?_eq_getElem hlt]

/-- The placement loop by index: a data position takes the data bit that as many data positions came before. -/
theorem placeFrom_getElem? {n i : Nat} (hi : i < n) (pos : Nat) (data : Bits) :
    (placeFrom n pos data)[i]? = some (if isPow2 (pos + i) then false
      else data.getD ((List.range' pos i).filter fun j => !isPow2 j).length false) := by
  induction n generalizing i pos data with
  | zero => cases hi
  | succ n ih =>
    rw [placeFrom]
    cases i with
    | zero => cases isPow2 pos <;> cases data <;> simp
    | succ i =>
      have hshift : pos + (i + 1) = pos + 1 + i := by omega
      by_cases hpow : isPow2 pos = true
      · rw [if_pos hpow, List.getElem?_cons_succ, ih (Nat.lt_of_succ_lt_succ hi)]
        simp [List.range'_succ, hpow, hshift]
      · rw [if_neg hpow, List.getElem?_cons_succ, ih (Nat.lt_of_succ_lt_succ hi)]
        cases data <;> simp [List.range'_succ, hpow, hshift]

theorem place_getElem?_of_isPow2 {data : Bits} {j : Nat} (hj : 1 ≤ j)
    (hin : j ≤ data.length + redundancyFor data.length) (hpow : isPow2 j = true) :
    (place data)[j - 1]? = some false := by
  rw [place, placeFrom_getElem? (by omega), Nat.add_sub_cancel' hj, if_pos hpow]

theorem filter_not_isPow2_before_dataPos {d : Nat} (hd : 1 ≤ d) :
    ((List.range' 1 (dataPos d - 1)).filter fun j => !isPow2 j).length = d - 1 := by
  have hp := two_le_dataPos d
  have hlast : dataPos d = dataPos d - 1 + 1 := by omega
  have hself : [dataPos d].filter (fun j => !isPow2 j) = [dataPos d] := by simp [isPow2_dataPos hd]
  have h := congrArg List.length (filter_not_isPow2_dataPos d)
  rw [hlast, List.range'_1_concat, Nat.add_comm 1, ← hlast, List.filter_append, hself, List.length_append,
    List.length_map, List.length_range'] at h
  exact Nat.eq_sub_of_add_eq h

theorem place_getElem?_dataPos {data : Bits} {d : Nat} (hd : 1 ≤ d) (hin : d ≤ data.length) :
    (place data)[dataPos d - 1]? = some (bitAt data d) := by
  have hp := two_le_dataPos d
  have hlast := dataPos_strictMono.monotone hin
  rw [dataPos_eq_add_redundancyFor (hd.trans hin)] at hlast
  rw [place, placeFrom_getElem? (by omega), Nat.add_sub_cancel' (by omega), isPow2_dataPos hd,
    filter_not_isPow2_before_dataPos hd]
  rfl

/-- Settles O43: the placement loop by index, at a data position and at a parity position. -/
theorem placementPutsDataInOrder : Obligations.PlacementPutsDataInOrder := by
  refine fun data _ => ⟨place_length data, fun d hd hin => ?_, fun j => place_getElem?_of_isPow2⟩
  rw [place_getElem?_dataPos hd hin, getElem?_eq_bitAt hd hin]

/-! ### The XOR of a group (R186) -/

/-- The XOR of `f` over a list of positions. -/
def xorOver (l : List Nat) (f : Nat → Bit) : Bit := l.foldl (fun acc j => Bool.xor acc (f j)) false

@[simp] theorem xorOver_nil (f : Nat → Bit) : xorOver [] f = false := rfl

@[simp] theorem xorOver_cons (j : Nat) (l : List Nat) (f : Nat → Bit) :
    xorOver (j :: l) f = Bool.xor (f j) (xorOver l f) := by
  have hmap : ∀ acc : Bit, l.foldl (fun acc j => Bool.xor acc (f j)) acc = (l.map f).foldl Bool.xor acc :=
    fun acc => List.foldl_map.symm
  rw [xorOver, xorOver, List.foldl_cons, hmap, hmap, Bool.xor_comm, List.foldl_assoc]

theorem xorOver_map (g : Nat → Nat) (l : List Nat) (f : Nat → Bit) :
    xorOver (l.map g) f = xorOver l fun j => f (g j) := List.foldl_map

theorem xorOver_congr {l : List Nat} {f g : Nat → Bit} (h : ∀ j ∈ l, f j = g j) : xorOver l f = xorOver l g :=
  List.foldl_ext _ _ _ fun _ j hj => by rw [h j hj]

theorem xorOver_filter (q : Nat → Bool) (l : List Nat) (f : Nat → Bit) :
    xorOver (l.filter q) f = xorOver l fun j => q j && f j := by
  induction l with
  | nil => rfl
  | cons j l ih => cases hq : q j <;> simp [hq, ih]

theorem and_two_pow_ne_zero_iff (j i : Nat) : j &&& 2 ^ i ≠ 0 ↔ j.testBit i = true := by
  rw [Nat.and_two_pow]
  cases j.testBit i <;> simp

theorem groupXorFrom_cons (i pos : Nat) (b : Bit) (X : Bits) :
    groupXorFrom (2 ^ i) pos (b :: X) = Bool.xor (pos.testBit i && b) (groupXorFrom (2 ^ i) (pos + 1) X) := by
  simp only [groupXorFrom, and_two_pow_ne_zero_iff]
  cases pos.testBit i <;> rfl

theorem groupXorFrom_eq_xorOver (i pos : Nat) (X : Bits) :
    groupXorFrom (2 ^ i) pos X = xorOver (List.range' pos X.length) fun j => j.testBit i && X.getD (j - pos) false := by
  induction X generalizing pos with
  | nil => rfl
  | cons b X ih =>
    rw [groupXorFrom_cons, ih, List.length_cons, List.range'_succ, xorOver_cons, Nat.sub_self, List.getD_cons_zero]
    congr 1
    refine xorOver_congr fun j hj => ?_
    rw [List.mem_range'_1] at hj
    rw [show j - pos = (j - (pos + 1)) + 1 by omega, List.getD_cons_succ]

/-- The group of position `2^i` is the positions with bit `i` set (R186). -/
theorem groupXor_eq_xorOver (i : Nat) (blk : Bits) :
    groupXor (2 ^ i) blk = xorOver (List.range' 1 blk.length) fun j => j.testBit i && bitAt blk j :=
  groupXorFrom_eq_xorOver i 1 blk

theorem groupXorFrom_set {X : Bits} {m : Nat} (hm : m < X.length) (i pos : Nat) (v : Bit) :
    groupXorFrom (2 ^ i) pos (X.set m v) =
      Bool.xor (groupXorFrom (2 ^ i) pos X) ((pos + m).testBit i && Bool.xor (X.getD m false) v) := by
  induction X generalizing m pos with
  | nil => cases hm
  | cons b X ih =>
    cases m with
    | zero =>
      simp only [List.set_cons_zero, groupXorFrom_cons, List.getD_cons_zero, Nat.add_zero]
      cases pos.testBit i <;> cases b <;> cases v <;> simp
    | succ m =>
      rw [List.set_cons_succ, groupXorFrom_cons, groupXorFrom_cons, ih (Nat.lt_of_succ_lt_succ hm), List.getD_cons_succ,
        Bool.xor_assoc, show pos + 1 + m = pos + (m + 1) by omega]

/-- Writing one bit of a block changes the XORs of the groups its position is in, if it changes the bit. -/
theorem groupXor_set {blk : Bits} {j : Nat} (hj : 1 ≤ j) (hin : j ≤ blk.length) (i : Nat) (v : Bit) :
    groupXor (2 ^ i) (blk.set (j - 1) v) =
      Bool.xor (groupXor (2 ^ i) blk) (j.testBit i && Bool.xor (bitAt blk j) v) := by
  have h := groupXorFrom_set (X := blk) (m := j - 1) (by omega) i 1 v
  rwa [Nat.add_sub_cancel' hj] at h

/-! ### The parity tree (R186, R187) -/

/-- No parity position is in the group of another. -/
theorem groupXor_storeParity_of_ne {i j : Nat} (hij : j ≠ i) (blk : Bits) :
    groupXor (2 ^ i) (storeParity blk j) = groupXor (2 ^ i) blk := by
  rw [storeParity]
  by_cases hin : 2 ^ j ≤ blk.length
  · rw [groupXor_set Nat.one_le_two_pow hin, Nat.testBit_two_pow, decide_eq_false hij, Bool.false_and, Bool.xor_false]
  · rw [List.set_eq_of_length_le (by omega)]

/-- The parity makes up for the rest of its group; what it replaces is left over. -/
theorem groupXor_storeParity_self {i : Nat} {blk : Bits} (hin : 2 ^ i ≤ blk.length) :
    groupXor (2 ^ i) (storeParity blk i) = bitAt blk (2 ^ i) := by
  rw [storeParity, groupXor_set Nat.one_le_two_pow hin, Nat.testBit_two_pow, decide_eq_true rfl, Bool.true_and,
    Bool.xor_left_comm, Bool.xor_self, Bool.xor_false]

theorem storeParity_getElem?_of_ne {i j : Nat} (hj : 1 ≤ j) (hne : j ≠ 2 ^ i) (blk : Bits) :
    (storeParity blk i)[j - 1]? = blk[j - 1]? := by
  have hpos := Nat.two_pow_pos i
  exact List.getElem?_set_ne (by omega)

theorem storeParity_getElem?_self {i : Nat} {blk : Bits} (hin : 2 ^ i ≤ blk.length) :
    (storeParity blk i)[2 ^ i - 1]? = some (groupXor (2 ^ i) blk) :=
  List.getElem?_set_self (by have := Nat.two_pow_pos i; omega)

theorem storeParity_right_comm (blk : Bits) (i j : Nat) :
    storeParity (storeParity blk i) j = storeParity (storeParity blk j) i := by
  by_cases hij : i = j
  · rw [hij]
  · have hne : 2 ^ i - 1 ≠ 2 ^ j - 1 := by
      have := Nat.two_pow_pos i
      have := Nat.two_pow_pos j
      have := Nat.pow_right_injective le_rfl |>.ne hij
      omega
    calc storeParity (storeParity blk i) j
        = (blk.set (2 ^ i - 1) (groupXor (2 ^ i) blk)).set (2 ^ j - 1) (groupXor (2 ^ j) blk) := by
          rw [storeParity, groupXor_storeParity_of_ne hij, storeParity]
      _ = (blk.set (2 ^ j - 1) (groupXor (2 ^ j) blk)).set (2 ^ i - 1) (groupXor (2 ^ i) blk) :=
          List.set_comm _ _ hne
      _ = storeParity (storeParity blk j) i := by
          rw [storeParity, groupXor_storeParity_of_ne (Ne.symm hij), storeParity]

theorem foldl_storeParity_of_perm {order : List Nat} {r : Nat} (h : order.Perm (List.range r)) (blk : Bits) :
    order.foldl storeParity blk = parities blk r :=
  h.foldl_eq' (fun i _ j _ blk => storeParity_right_comm blk i j) blk

theorem parities_succ (blk : Bits) (r : Nat) : parities blk (r + 1) = storeParity (parities blk r) r := by
  simp [parities, List.range_succ]

/-- The rounds before do not touch the group of a later one. -/
theorem groupXor_parities_of_le {r i : Nat} (h : r ≤ i) (blk : Bits) :
    groupXor (2 ^ i) (parities blk r) = groupXor (2 ^ i) blk := by
  induction r with
  | zero => rfl
  | succ r ih => rw [parities_succ, groupXor_storeParity_of_ne (by omega), ih (by omega)]

theorem parities_getElem?_of_ne {j r : Nat} (hj : 1 ≤ j) (hne : ∀ i < r, j ≠ 2 ^ i) (blk : Bits) :
    (parities blk r)[j - 1]? = blk[j - 1]? := by
  induction r with
  | zero => rfl
  | succ r ih =>
    rw [parities_succ, storeParity_getElem?_of_ne hj (hne r (Nat.lt_succ_self r)), ih fun i hi => hne i (by omega)]

theorem parities_getElem?_two_pow {i r : Nat} (hi : i < r) {blk : Bits} (hin : 2 ^ i ≤ blk.length) :
    (parities blk r)[2 ^ i - 1]? = some (groupXor (2 ^ i) blk) := by
  induction r with
  | zero => cases hi
  | succ r ih =>
    rw [parities_succ]
    by_cases hir : i = r
    · subst hir
      rw [storeParity_getElem?_self (by rwa [parities_length]), groupXor_parities_of_le le_rfl]
    · have hne : 2 ^ i ≠ 2 ^ r := Nat.pow_right_injective le_rfl |>.ne hir
      rw [storeParity_getElem?_of_ne Nat.one_le_two_pow hne, ih (by omega)]

/-- Every group ends with even parity if its parity position was reserved with 0. -/
theorem groupXor_parities {i r : Nat} (hi : i < r) {blk : Bits} (hin : 2 ^ i ≤ blk.length)
    (hzero : bitAt blk (2 ^ i) = false) : groupXor (2 ^ i) (parities blk r) = false := by
  induction r with
  | zero => cases hi
  | succ r ih =>
    rw [parities_succ]
    by_cases hir : i = r
    · subst hir
      have hold : bitAt (parities blk i) (2 ^ i) = bitAt blk (2 ^ i) := by
        rw [bitAt, bitAt, List.getD_eq_getElem?_getD, List.getD_eq_getElem?_getD,
          parities_getElem?_of_ne Nat.one_le_two_pow fun e he => Nat.pow_right_injective le_rfl |>.ne (by omega)]
      rw [groupXor_storeParity_self (by rwa [parities_length]), hold, hzero]
    · rw [groupXor_storeParity_of_ne (Ne.symm hir), ih (by omega)]

/-! ### The block (R187, R188) -/

theorem two_pow_le_place_length {data : Bits} {i : Nat} (hi : i < redundancyFor data.length) :
    2 ^ i ≤ (place data).length := by
  rw [place_length]
  exact (two_pow_lt_block_of_lt_redundancyFor hi).le

theorem bitAt_place_two_pow {data : Bits} {i : Nat} (hi : i < redundancyFor data.length) :
    bitAt (place data) (2 ^ i) = false :=
  bitAt_eq_of_getElem? (place_getElem?_of_isPow2 Nat.one_le_two_pow
    (two_pow_lt_block_of_lt_redundancyFor hi).le (isPow2_two_pow i))

/-- The parity positions are reserved with 0, so the XOR of a group of the placed block is that of its data. -/
theorem groupXor_place {data : Bits} (hk : 1 ≤ data.length) (i : Nat) :
    groupXor (2 ^ i) (place data) =
      xorOver ((List.range' 1 data.length).filter fun d => dataPos d &&& 2 ^ i ≠ 0) (bitAt data) := by
  have hparity : ∀ j ∈ List.range' 1 (place data).length, (j.testBit i && bitAt (place data) j) =
      (!isPow2 j && (j.testBit i && bitAt (place data) j)) := by
    intro j hj
    rw [place_length, List.mem_range'_1] at hj
    cases hpow : isPow2 j with
    | false => simp
    | true => rw [bitAt_eq_of_getElem? (place_getElem?_of_isPow2 hj.1 (by omega) hpow), Bool.and_false, Bool.and_false]
  have hdata : ∀ d ∈ List.range' 1 data.length, ((dataPos d).testBit i && bitAt (place data) (dataPos d)) =
      (decide (dataPos d &&& 2 ^ i ≠ 0) && bitAt data d) := by
    intro d hd
    rw [List.mem_range'_1] at hd
    simp only [bitAt_eq_of_getElem? (place_getElem?_dataPos hd.1 (show d ≤ data.length by omega)),
      and_two_pow_ne_zero_iff, Bool.decide_eq_true]
  rw [groupXor_eq_xorOver, xorOver_congr hparity, ← xorOver_filter, place_length, filter_not_isPow2_block hk,
    xorOver_map, xorOver_congr hdata, xorOver_filter]

theorem encodeBlock_getElem?_dataPos {data : Bits} {d : Nat} (hd : 1 ≤ d) (hin : d ≤ data.length) :
    (encodeBlock data)[dataPos d - 1]? = data[d - 1]? := by
  have hne : ∀ i < redundancyFor data.length, dataPos d ≠ 2 ^ i := by
    intro i _ heq
    have hdata := isPow2_dataPos hd
    rw [heq, isPow2_two_pow] at hdata
    cases hdata
  have hp := two_le_dataPos d
  rw [encodeBlock, parities_getElem?_of_ne (by omega) hne, place_getElem?_dataPos hd hin, getElem?_eq_bitAt hd hin]

/-- Settles O44: a parity is the XOR of its group in the placed block, whose parity positions are 0; a round does not
touch another round's group, so two rounds commute. -/
theorem parityBitsAreXorsOfData : Obligations.ParityBitsAreXorsOfData := by
  refine fun data hk => ⟨fun i hi => ?_, fun d => encodeBlock_getElem?_dataPos, fun order h =>
    foldl_storeParity_of_perm h (place data)⟩
  rw [encodeBlock, parities_getElem?_two_pow hi (two_pow_le_place_length hi), groupXor_place hk]
  rfl

/-! ### The block invariant (R189) -/

theorem groupXor_encodeBlock {data : Bits} {i : Nat} (hi : i < redundancyFor data.length) :
    groupXor (2 ^ i) (encodeBlock data) = false :=
  groupXor_parities hi (two_pow_le_place_length hi) (bitAt_place_two_pow hi)

/-- After one bit is flipped, the groups that fail are those of the bits of its position. -/
theorem groupXor_flipped {data : Bits} {i j : Nat} (hi : i < redundancyFor data.length) (hj : 1 ≤ j)
    (hin : j ≤ data.length + redundancyFor data.length) :
    groupXor (2 ^ i) ((encodeBlock data).set (j - 1) (!bitAt (encodeBlock data) j)) = j.testBit i := by
  rw [groupXor_set hj (by rwa [encodeBlock_length]), groupXor_encodeBlock hi, Bool.xor_not_self, Bool.and_true,
    Bool.false_xor]

theorem filter_testBit_range {j r : Nat} (h : j < 2 ^ r) :
    (List.range r).filter (fun i => j.testBit i) = j.bitIndices := by
  refine List.SortedLT.eq_of_mem_iff (List.pairwise_lt_range.filter _).sortedLT Nat.bitIndices_sorted fun i => ?_
  simp only [List.mem_filter, List.mem_range, Nat.mem_bitIndices, and_iff_right_iff_imp]
  intro hbit
  exact (Nat.pow_lt_pow_iff_right (a := 2) (by decide)).1 ((Nat.ge_two_pow_of_testBit hbit).trans_lt h)

/-- Settles O45: a stored parity makes its group even; a flipped bit at position `j` upsets the groups of the bits of
`j`, and `j` is the sum of the powers of two at its bits. -/
theorem blockParityEvenAndErrorLocated : Obligations.BlockParityEvenAndErrorLocated := by
  refine fun data _ => ⟨fun i => groupXor_encodeBlock, fun j hj hin => ?_⟩
  have hfailing : ((List.range (redundancyFor data.length)).filter fun i =>
      groupXor (2 ^ i) ((encodeBlock data).set (j - 1) (!bitAt (encodeBlock data) j))) = j.bitIndices := by
    rw [← filter_testBit_range (hin.trans_lt (redundancyFor_enough data.length))]
    exact List.filter_congr fun i hi => groupXor_flipped (List.mem_range.1 hi) hj hin
  exact (congrArg (fun l => (l.map fun i => 2 ^ i).sum) hfailing).trans (Nat.sum_map_two_pow_bitIndices j)

/-! ### The stream (R190, R191) -/

theorem padFor_eq_zero_iff {k : Nat} (hk : 1 ≤ k) (len : Nat) : padFor len k = 0 ↔ k ∣ len := by
  have hsum := dvd_add_padFor hk len
  constructor
  · intro hzero
    rwa [hzero] at hsum
  · intro hlen
    exact Nat.eq_zero_of_dvd_of_lt ((Nat.dvd_add_right hlen).1 hsum) (padFor_lt hk len)

/-- A message shorter than a block is filled up to one block. -/
theorem padFor_of_lt {len k : Nat} (hpos : 1 ≤ len) (hlt : len < k) : padFor len k = k - len := by
  rw [padFor, Nat.mod_eq_of_lt hlt, Nat.mod_eq_of_lt (by omega)]

/-- The blocks stand one after the other: block `j` is the encoding of chunk `j`. -/
theorem encodeChunks_slice {k nb j : Nat} {X : Bits} (hX : nb * k ≤ X.length) (hj : j < nb) :
    ((encodeChunks k nb X).drop (j * (k + redundancyFor k))).take (k + redundancyFor k) =
      encodeBlock ((X.drop (j * k)).take k) := by
  induction nb generalizing j X with
  | zero => cases hj
  | succ nb ih =>
    rw [Nat.succ_mul] at hX
    have hblock : (encodeBlock (X.take k)).length = k + redundancyFor k := by
      rw [encodeBlock_length, List.length_take_of_le (by omega)]
    rw [encodeChunks]
    cases j with
    | zero => rw [Nat.zero_mul, Nat.zero_mul, List.drop_zero, List.drop_zero, List.take_left' hblock]
    | succ j =>
      have hrest : nb * k ≤ (X.drop k).length := by rw [List.length_drop]; omega
      rw [Nat.succ_mul, Nat.succ_mul, Nat.add_comm (j * _), Nat.add_comm (j * k),
        ← List.drop_drop (i := j * (k + _)), ← List.drop_drop (i := j * k), List.drop_left' hblock,
        ih hrest (Nat.lt_of_succ_lt_succ hj)]

theorem encodeStream_frame_eq (X : Bits) (k : Nat) : (encodeStream X k).frame =
    encodeChunks k ((X.length + padFor X.length k) / k) (X ++ zeros (padFor X.length k)) := by
  rw [encodeStream, List.length_append, zeros_length]

theorem encodeStream_slice {X : Bits} {k j : Nat} (hj : j < (X.length + padFor X.length k) / k) :
    ((encodeStream X k).frame.drop (j * (k + redundancyFor k))).take (k + redundancyFor k) =
      encodeBlock (((X ++ zeros (padFor X.length k)).drop (j * k)).take k) := by
  rw [encodeStream_frame_eq]
  exact encodeChunks_slice (by simpa using Nat.div_mul_le_self _ k) hj

/-- Settles O46: the sizes from `dvd_add_padFor`, the slices by induction on the number of blocks. -/
theorem streamIsBlocksOfPaddedMessage : Obligations.StreamIsBlocksOfPaddedMessage := by
  refine fun X k hk => ⟨rfl, rfl, Nat.le_sub_one_of_lt (padFor_lt hk _), padFor_eq_zero_iff hk _,
    Nat.div_mul_cancel (dvd_add_padFor hk _), encodeStream_frame_length X k, fun j => encodeStream_slice,
    fun hX => ?empty, fun hpos hlt => ?short⟩
  case empty =>
    have hpad : padFor X.length k = 0 := (padFor_eq_zero_iff hk _).2 (by simp [hX])
    rw [encodeStream_frame_eq, hpad, hX, List.length_nil, Nat.zero_div]
    rfl
  case short =>
    rw [encodeStream_pad, padFor_of_lt hpos hlt, Nat.add_sub_cancel' hlt.le, Nat.div_self hk]

/-! ### `ENCHAM` (R193) -/

/-- What `ENCHAM` does where it is performed. -/
def hammingEncoded (k : Nat) (s : State) : State :=
  { s with
    F := (encodeStream s.M k).frame, algo := .hamming, k := BitVec.ofNat 7 k, r := BitVec.ofNat 3 (redundancyFor k),
    padBits := BitVec.ofNat 6 (padFor s.M.length k), fsm := .encoded }

theorem enchamBody_of_fits {kop : Operand36} {s : State} (hk : 1 ≤ kop.toNat) (hk' : kop.toNat ≤ 64)
    (h : fits s.cap (encodeStream s.M kop.toNat).frame.length) :
    enchamBody kop s = .ok (hammingEncoded kop.toNat s) := by
  rw [enchamBody_eq, if_neg (by omega), (exceedsCap_eq_false_iff _ _).2 h]
  rfl

theorem enchamBody_of_not_fits {kop : Operand36} {s : State} (hk : 1 ≤ kop.toNat) (hk' : kop.toNat ≤ 64)
    (h : ¬ fits s.cap (encodeStream s.M kop.toNat).frame.length) : enchamBody kop s = .error .capacityExceeded := by
  rw [enchamBody_eq, if_neg (by omega), if_pos ((exceedsCap_eq_true_iff_not_fits _ _).2 h)]

theorem enchamBody_of_illegal {kop : Operand36} (h : kop.toNat = 0 ∨ 65 ≤ kop.toNat) (s : State) :
    enchamBody kop s = .error .invalidBlockSize := by
  rw [enchamBody_eq, if_pos (by omega)]

/-- Settles O18: the word, the three ends of `enchamBody`, and the row of the table. -/
theorem enchamMakesHammingFrame : Obligations.EnchamMakesHammingFrame := by
  intro kop s len pad size
  have hsize : (encodeStream s.M kop.toNat).frame.length = size := encodeStream_frame_length s.M kop.toNat
  have hok := legality_encham_eq_ok_iff kop s.fsm
  refine ⟨encode_toNat (op := 6) rfl rfl, fun hs hk hk' hfits => ?fits,
    fun hs hkop => exec_of_raises (hok.2 hs) (enchamBody_of_illegal hkop s), fun hs hk hk' hfull => ?full,
    fun hs => exec_encoder_in_idle hs rfl, exec_encoder_after_encoding rfl, fun hs => exec_in_fault hs (by simp)⟩
  case fits =>
    obtain ⟨hkreg, hrreg, hpadreg⟩ := hamming_registers_fit hk hk' len
    refine ⟨hammingEncoded kop.toNat s, ?_, hkreg, hrreg, hpadreg, hsize, rfl, fun hi => ?_⟩
    · exact exec_of_done (hok.2 hs) (enchamBody_of_fits hk hk' (hsize ▸ hfits))
    · exact (hi.noEncoderYet ((loading_iff _).2 (.inr hs))).1
  case full => exact exec_of_raises (hok.2 hs) (enchamBody_of_not_fits hk hk' (hsize ▸ hfull))

end Sys2Proof.Machine
end

section
/-! PROOFS of `spec/43_noise_channel.md`: the channel for every source (R222, R229) and the threshold (R223), the step
of the default generator, its samples and its full period (R224 to R226), and the whole behaviour of `SEED` and `NOISE`
(R227, R228).

The full period needs no run through 2^32 states. The step multiplies a polynomial over two elements by `x`, modulo the
polynomial of degree 32. A map that respects XOR and commutes with the step is fixed by its value at 1, so that a
number of steps is told by one product, and the order of the step by a few powers of `x`, found by squaring. -/

namespace Sys2Proof.Machine

open Sys2Proof.Laws Function

/-! ### The channel, for every random source (R222, R229) -/

theorem flips_eq_decide (u : Word32) (T : Operand36) : flips u T = decide (u.toNat < T.toNat) := by
  rw [flips, BitVec.ult, BitVec.toNat_setWidth_of_le (by omega)]

theorem bscApply_fst_getElem? {σ : Type} (next : σ → σ × Word32) (T : Operand36) (X : Bits) (s : σ) (i : Nat) :
    (bscApply next T X s).1[i]? = X[i]?.map fun b => Bool.xor b (flips (nthSample next i s) T) := by
  induction X generalizing s i with
  | nil => rfl
  | cons b X ih =>
    rw [bscApply_cons]
    cases i with
    | zero => rfl
    | succ i => exact ih (next s).1 i

theorem bscApply_snd {σ : Type} (next : σ → σ × Word32) (T : Operand36) (X : Bits) (s : σ) :
    (bscApply next T X s).2 = afterSamples next X.length s := by
  induction X generalizing s with
  | nil => rfl
  | cons b X ih => exact ih (next s).1

/-- Settles O47, by induction on the frame. -/
theorem channelDrawsOneSamplePerBit : Obligations.ChannelDrawsOneSamplePerBit := by
  refine fun σ next T frame s => ⟨bscApply_length next T frame s, fun i => ?_, bscApply_snd next T frame s⟩
  rw [bscApply_fst_getElem?, flips_eq_decide]

/-- Where the samples make no difference the channel changes every bit in one way. -/
theorem bscApply_fst_of_flips {σ : Type} (next : σ → σ × Word32) {T : Operand36} {c : Bit} (h : ∀ u, flips u T = c)
    (X : Bits) (s : σ) : (bscApply next T X s).1 = X.map fun b => Bool.xor b c := by
  refine List.ext_getElem? fun i => ?_
  rw [bscApply_fst_getElem?, List.getElem?_map, h]

theorem flips_zero (u : Word32) : flips u 0x000000000#36 = false :=
  (flips_eq_decide u _).trans (decide_eq_false (Nat.not_lt_zero _))

theorem flips_two_pow (u : Word32) : flips u 0x100000000#36 = true :=
  (flips_eq_decide u _).trans (decide_eq_true u.isLt)

/-- Settles O48: no sample is below 0, and every sample is below 2^32. -/
theorem channelEndCases : Obligations.ChannelEndCases := by
  refine fun σ source frame s => ⟨?_, ?_, fun T => bscApply_length source.rngNext T frame s⟩
  · simp only [bscApply_fst_of_flips _ flips_zero, Bool.xor_false, List.map_id']
  · simp only [bscApply_fst_of_flips _ flips_two_pow, Bool.xor_true]

/-! ### The threshold of a probability (R223) -/

/-- Settles O58: the conversion is the integer part of one fraction, `p * 2^32 + 1/2`. -/
theorem thresholdRoundsProbability : Obligations.ThresholdRoundsProbability := by
  refine fun num den hden hle => ⟨?_, thresholdOf_le hden hle⟩
  have hne : (den : ℚ) ≠ 0 := Nat.cast_ne_zero.2 hden.ne'
  have hfraction : (num : ℚ) / den * 2 ^ 32 + 1 / 2 =
      ((2 * (num * 0x100000000) + den : ℕ) : ℚ) / ((2 * den : ℕ) : ℚ) := by
    push_cast
    field_simp
    ring
  rw [hfraction, Rat.floor_natCast_div_natCast, thresholdOf, Int.natCast_ediv]

/-! ### One step of the default generator (R224) -/

theorem lfsrStep_eq_crcStep (v : Word32) : lfsrStep v = crcStep v false := by
  rw [lfsrStep, crcStep, Bool.xor_false]
  rfl

theorem lfsrStep_xor (v w : Word32) : lfsrStep (v ^^^ w) = lfsrStep v ^^^ lfsrStep w := by
  simp only [lfsrStep_eq_crcStep]
  exact crcStep_xor v w false false

theorem lfsrStep_injective : Injective lfsrStep := by
  intro v w h
  have hzero : lfsrStep (v ^^^ w) = 0x00000000#32 := by rw [lfsrStep_xor, h, BitVec.xor_self]
  exact BitVec.xor_eq_zero_iff.1 (not_not.1 fun hne => lfsrStep_ne_zero hne hzero)

theorem lfsrStep_of_low {v : Word32} (h : v.getLsbD 31 = false) : lfsrStep v = v <<< 1 := by
  rw [lfsrStep_eq_crcStep, crcStep_of_no_feedback h.symm]

theorem lfsrStep_toNat (v : Word32) : (lfsrStep v).toNat =
    (2 * v.toNat % 0x100000000) ^^^ (if 0x80000000 ≤ v.toNat then 0x04C11DB7 else 0) := by
  have hshift : (v <<< 1).toNat = 2 * v.toNat % 0x100000000 := by
    rw [BitVec.toNat_shiftLeft, Nat.shiftLeft_eq, Nat.mul_comm]
  have htop : v.getLsbD 31 = decide (0x80000000 ≤ v.toNat) := by
    rw [← BitVec.msb_eq_getLsbD_last v (w := 32), BitVec.msb_eq_decide]
  rw [lfsrStep_eq_crcStep, crcStep_eq_xor, Bool.xor_false, BitVec.toNat_xor, hshift, htop, feedbackMask]
  by_cases h : 0x80000000 ≤ v.toNat
  · rw [if_pos h, if_pos (decide_eq_true h)]
    rfl
  · rw [if_neg h, if_neg (by simpa using h)]
    rfl

/-- Settles O49: the step is the register's shift with input 0, and linear; no other value than zero reaches zero, so it
is one to one. -/
theorem lfsrStepShiftsWithFeedback : Obligations.LfsrStepShiftsWithFeedback :=
  ⟨rfl, fun v => ⟨lfsrStep_toNat v, lfsrStep_eq_crcStep v, lfsrStep_ne_zero,
    fun w => ⟨lfsrStep_xor v w, fun h => lfsrStep_injective h⟩⟩⟩

/-! ### The default source (R225) -/

theorem lfsrSteps_eq_iterate (n : Nat) : lfsrSteps n = lfsrStep^[n] := by
  induction n with
  | zero => rfl
  | succ n ih =>
    funext v
    rw [lfsrSteps, ih, iterate_succ_apply]

theorem lfsrNext_eq_iterate : lfsrNext = lfsrStep^[32] := lfsrSteps_eq_iterate 32

theorem lfsrSeed_eq (seed : Word32) : lfsrSeed seed = if seed.toNat = 0 then 0xFFFFFFFF#32 else seed := by
  have hzero : seed = 0x00000000#32 ↔ seed.toNat = 0 := BitVec.toNat_inj.symm
  simp only [lfsrSeed, hzero]

theorem nthSample_eq {σ : Type} (next : σ → σ × Word32) (n : Nat) (s : σ) :
    nthSample next n s = (next (afterSamples next n s)).2 := by
  induction n generalizing s with
  | zero => rfl
  | succ n ih => exact ih (next s).1

theorem afterSamples_lfsrSource (n : Nat) (v : Word32) :
    afterSamples lfsrSource.rngNext n v = lfsrStep^[32 * n] v := by
  induction n generalizing v with
  | zero => rfl
  | succ n ih =>
    calc afterSamples lfsrSource.rngNext (n + 1) v
        = lfsrStep^[32 * n] (lfsrNext v) := ih (lfsrNext v)
      _ = lfsrStep^[32 * (n + 1)] v := by rw [lfsrNext_eq_iterate, ← iterate_add_apply, Nat.mul_succ]

theorem nthSample_lfsrSource (n : Nat) (v : Word32) :
    nthSample lfsrSource.rngNext n v = lfsrStep^[32 * (n + 1)] v := by
  calc nthSample lfsrSource.rngNext n v
      = lfsrNext (lfsrStep^[32 * n] v) := by rw [nthSample_eq, afterSamples_lfsrSource]; rfl
    _ = lfsrStep^[32 * (n + 1)] v := by
        rw [lfsrNext_eq_iterate, ← iterate_add_apply, Nat.add_comm, ← Nat.mul_succ]

/-- Settles O51: a sample is 32 steps; the samples the rule lists are run. -/
theorem defaultSourceIsLfsr : Obligations.DefaultSourceIsLfsr := by
  refine ⟨rfl, lfsrSeed_eq, fun v n => ⟨afterSamples_lfsrSource n v, nthSample_lfsrSource n v⟩, fun v => ?_, ?_⟩
  · rw [← lfsrNext_eq_iterate]
    rfl
  · decide +kernel

/-! ### The step as multiplication by `x` (R226) -/

/-- A map that respects XOR and commutes with the step: the multiplication by some polynomial. -/
structure IsLfsrLinear (f : Word32 → Word32) : Prop where
  /-- It respects XOR. -/
  xor : ∀ v w, f (v ^^^ w) = f v ^^^ f w
  /-- It commutes with the step. -/
  step : ∀ v, f (lfsrStep v) = lfsrStep (f v)

theorem IsLfsrLinear.map_zero {f : Word32 → Word32} (hf : IsLfsrLinear f) : f 0x00000000#32 = 0x00000000#32 := by
  have h := hf.xor 0 0
  rwa [BitVec.xor_self, BitVec.xor_self] at h

theorem isLfsrLinear_zero : IsLfsrLinear fun _ => 0x00000000#32 := ⟨fun _ _ => rfl, fun _ => rfl⟩

theorem isLfsrLinear_id : IsLfsrLinear id := ⟨fun _ _ => rfl, fun _ => rfl⟩

theorem isLfsrLinear_lfsrStep : IsLfsrLinear lfsrStep := ⟨lfsrStep_xor, fun _ => rfl⟩

theorem IsLfsrLinear.comp {f g : Word32 → Word32} (hf : IsLfsrLinear f) (hg : IsLfsrLinear g) :
    IsLfsrLinear (f ∘ g) :=
  ⟨fun v w => by simp only [comp_apply, hg.xor, hf.xor], fun v => by simp only [comp_apply, hg.step, hf.step]⟩

theorem IsLfsrLinear.add {f g : Word32 → Word32} (hf : IsLfsrLinear f) (hg : IsLfsrLinear g) :
    IsLfsrLinear fun v => f v ^^^ g v :=
  ⟨fun v w => by rw [hf.xor, hg.xor]; ac_rfl, fun v => by rw [hf.step, hg.step, lfsrStep_xor]⟩

theorem isLfsrLinear_iterate (n : Nat) : IsLfsrLinear lfsrStep^[n] := by
  induction n with
  | zero => exact isLfsrLinear_id
  | succ n ih => exact ih.comp isLfsrLinear_lfsrStep

/-- The product of `v` and the polynomial of the low `n` bits of `u`, by Horner's rule. -/
def lfsrMul : Nat → Word32 → Word32 → Word32
  | 0, _, _ => 0x00000000#32
  | n + 1, u, v => lfsrStep (lfsrMul n (u >>> 1) v) ^^^ if u.getLsbD 0 then v else 0x00000000#32

theorem isLfsrLinear_lfsrMul (n : Nat) (u : Word32) : IsLfsrLinear (lfsrMul n u) := by
  induction n generalizing u with
  | zero => exact isLfsrLinear_zero
  | succ n ih =>
    refine (isLfsrLinear_lfsrStep.comp (ih (u >>> 1))).add ?_
    cases u.getLsbD 0
    · exact isLfsrLinear_zero
    · exact isLfsrLinear_id

/-- A word is built from 1 by steps and XORs. -/
theorem eq_lfsrStep_half_xor (u : Word32) :
    u = lfsrStep (u >>> 1) ^^^ if u.getLsbD 0 then 0x00000001#32 else 0x00000000#32 := by
  rw [lfsrStep_of_low (by simp)]
  ext i hi
  cases i with
  | zero => cases h : u.getLsbD 0 <;> simp_all
  | succ i => cases u.getLsbD 0 <;> simp [BitVec.getElem_one, Nat.add_comm 1 i, hi]

theorem IsLfsrLinear.apply_eq_lfsrMul_of_lt {f : Word32 → Word32} (hf : IsLfsrLinear f) {n : Nat} {u : Word32}
    (hu : u.toNat < 2 ^ n) : f u = lfsrMul n u (f 0x00000001#32) := by
  induction n generalizing u with
  | zero =>
    have hzero : u = 0x00000000#32 := BitVec.eq_of_toNat_eq (Nat.lt_one_iff.1 hu)
    rw [hzero, hf.map_zero]
    rfl
  | succ n ih =>
    have hhalf : (u >>> 1).toNat < 2 ^ n := by
      rw [BitVec.toNat_ushiftRight, Nat.shiftRight_eq_div_pow]
      omega
    conv_lhs => rw [eq_lfsrStep_half_xor u]
    rw [hf.xor, hf.step, ih hhalf, lfsrMul]
    cases u.getLsbD 0
    · exact congrArg _ hf.map_zero
    · rfl

/-- Such a map is the multiplication by its value at 1. -/
theorem IsLfsrLinear.apply_eq_lfsrMul {f : Word32 → Word32} (hf : IsLfsrLinear f) (u : Word32) :
    f u = lfsrMul 32 u (f 0x00000001#32) :=
  hf.apply_eq_lfsrMul_of_lt u.isLt

theorem IsLfsrLinear.eq_of_apply_one {f g : Word32 → Word32} (hf : IsLfsrLinear f) (hg : IsLfsrLinear g)
    (h : f 0x00000001#32 = g 0x00000001#32) : f = g := by
  funext u
  rw [hf.apply_eq_lfsrMul, hg.apply_eq_lfsrMul, h]

/-! ### Powers of `x` by squaring (R226) -/

/-- The square. The test makes the kernel evaluate `u` before the product takes it apart, so that the evaluations of a
tower of squares do not nest. -/
def lfsrSquare (u : Word32) : Word32 := if u = 0x00000000#32 then 0x00000000#32 else lfsrMul 32 u u

theorem lfsrSquare_eq (u : Word32) : lfsrSquare u = lfsrMul 32 u u := by
  unfold lfsrSquare
  split
  · next hzero => rw [hzero, (isLfsrLinear_lfsrMul 32 0x00000000#32).map_zero]
  · rfl

/-- The power `x ^ n`, for `n` of at most `k` binary digits. -/
def lfsrPow : Nat → Nat → Word32
  | 0, _ => 0x00000001#32
  | k + 1, n =>
    if n % 2 = 1 then lfsrStep (lfsrSquare (lfsrPow k (n / 2))) else lfsrSquare (lfsrPow k (n / 2))

theorem lfsrSquare_iterate (n : Nat) :
    lfsrSquare (lfsrStep^[n] 0x00000001#32) = lfsrStep^[n + n] 0x00000001#32 := by
  rw [lfsrSquare_eq, iterate_add_apply]
  exact ((isLfsrLinear_iterate n).apply_eq_lfsrMul _).symm

theorem lfsrPow_eq_iterate {k n : Nat} (hn : n < 2 ^ k) : lfsrPow k n = lfsrStep^[n] 0x00000001#32 := by
  induction k generalizing n with
  | zero =>
    rw [Nat.lt_one_iff.1 hn]
    rfl
  | succ k ih =>
    rw [lfsrPow, ih (by omega), lfsrSquare_iterate]
    split
    · rw [← iterate_succ_apply' lfsrStep]
      congr 2
      omega
    · congr 2
      omega

/-! ### The period (R226) -/

theorem lfsrPow_full : lfsrPow 32 0xFFFFFFFF = 0x00000001#32 := by decide +kernel

theorem lfsrStep_iterate_full : lfsrStep^[0xFFFFFFFF] = id :=
  (isLfsrLinear_iterate _).eq_of_apply_one isLfsrLinear_id
    ((lfsrPow_eq_iterate (k := 32) (by omega)).symm.trans lfsrPow_full)

/-- The primes `p` of 2^32 - 1, each with the inverse of `x ^ ((2^32 - 1) / p) + 1`. -/
def periodPrimes : List (Nat × Word32) :=
  [(3, 0x4AD76CE3#32), (5, 0x80E6C2BC#32), (17, 0x74490587#32), (257, 0x8D66383C#32), (65537, 0x5313672B#32)]

theorem lfsrMul_periodPrimes : ∀ pc ∈ periodPrimes,
    lfsrMul 32 pc.2 (lfsrPow 32 (0xFFFFFFFF / pc.1) ^^^ 0x00000001#32) = 0x00000001#32 := by decide +kernel

theorem exists_mem_periodPrimes {p : Nat} (hp : p.Prime) (h : p ∣ 0xFFFFFFFF) : ∃ c, (p, c) ∈ periodPrimes := by
  have hprime : ∀ q ∈ periodPrimes.map Prod.fst, Prime q := by norm_num [periodPrimes, ← Nat.prime_iff]
  have hprod : 0xFFFFFFFF = (periodPrimes.map Prod.fst).prod := rfl
  have hmem := mem_list_primes_of_dvd_prod hp.prime hprime (hprod ▸ h)
  obtain ⟨⟨q, c⟩, hc, rfl⟩ := List.mem_map.1 hmem
  exact ⟨c, hc⟩

/-- Where `x ^ n + 1` has an inverse, `n` steps move every word but zero. -/
theorem not_isPeriodicPt_of_inverse {n : Nat} {c v : Word32}
    (hc : lfsrMul 32 c (lfsrStep^[n] 0x00000001#32 ^^^ 0x00000001#32) = 0x00000001#32) (hv : v ≠ 0x00000000#32) :
    ¬ IsPeriodicPt lfsrStep n v := by
  intro hperiodic
  have hmul := isLfsrLinear_lfsrMul 32 c
  have hinverse : lfsrMul 32 c ∘ (fun w => lfsrStep^[n] w ^^^ id w) = id :=
    (hmul.comp ((isLfsrLinear_iterate n).add isLfsrLinear_id)).eq_of_apply_one isLfsrLinear_id hc
  have hmoved : lfsrStep^[n] v ^^^ v = 0x00000000#32 := BitVec.xor_eq_zero_iff.2 hperiodic
  refine hv ?_
  calc v = lfsrMul 32 c (lfsrStep^[n] v ^^^ v) := (congrFun hinverse v).symm
    _ = 0x00000000#32 := by rw [hmoved, hmul.map_zero]

/-- A period of which no quotient by a prime is a period is the smallest one. -/
theorem minimalPeriod_eq_of_not_isPeriodicPt_div_prime {α : Type} {f : α → α} {x : α} {n : Nat}
    (hx : IsPeriodicPt f n x) (h : ∀ p : Nat, p.Prime → p ∣ n → ¬ IsPeriodicPt f (n / p) x) :
    minimalPeriod f x = n := by
  by_contra hne
  obtain ⟨k, hk⟩ := hx.minimalPeriod_dvd
  have hk1 : k ≠ 1 := fun h1 => hne (by rw [hk, h1, Nat.mul_one])
  obtain ⟨p, hp, m, rfl⟩ := Nat.exists_prime_and_dvd hk1
  have hfactor : n = p * (minimalPeriod f x * m) := hk.trans (Nat.mul_left_comm _ _ _)
  refine h p hp (Dvd.intro _ hfactor.symm) ?_
  rw [hfactor, Nat.mul_div_cancel_left _ hp.pos]
  exact (isPeriodicPt_minimalPeriod f x).mul_const m

theorem minimalPeriod_lfsrStep {v : Word32} (hv : v ≠ 0x00000000#32) : minimalPeriod lfsrStep v = 0xFFFFFFFF := by
  refine minimalPeriod_eq_of_not_isPeriodicPt_div_prime (congrFun lfsrStep_iterate_full v)
    fun p hp hdvd => ?_
  obtain ⟨c, hc⟩ := exists_mem_periodPrimes hp hdvd
  have hinverse := lfsrMul_periodPrimes _ hc
  rw [lfsrPow_eq_iterate ((Nat.div_le_self 0xFFFFFFFF p).trans_lt (by omega))] at hinverse
  exact not_isPeriodicPt_of_inverse hinverse hv

/-- 32 has no factor in common with the period. -/
theorem minimalPeriod_lfsrNext {v : Word32} (hv : v ≠ 0x00000000#32) : minimalPeriod lfsrNext v = 0xFFFFFFFF := by
  rw [lfsrNext_eq_iterate, minimalPeriod_iterate_eq_div_gcd (by omega), minimalPeriod_lfsrStep hv]
  rfl

theorem iterate_eq_and_ne_of_minimalPeriod {α : Type} {f : α → α} {x : α} {m : Nat} (h : minimalPeriod f x = m) :
    f^[m] x = x ∧ ∀ n, 0 < n → n < m → f^[n] x ≠ x := by
  subst h
  exact ⟨iterate_minimalPeriod, fun n hpos hlt => not_isPeriodicPt_of_pos_of_lt_minimalPeriod hpos.ne' hlt⟩

/-- Settles O52: `x ^ (2^32 - 1)` is 1, and for each of the five primes of 2^32 - 1 the power of `x` by the quotient
differs from 1 by an invertible polynomial. -/
theorem lfsrHasFullPeriod : Obligations.LfsrHasFullPeriod := fun _ hv =>
  ⟨iterate_eq_and_ne_of_minimalPeriod (minimalPeriod_lfsrStep hv),
    iterate_eq_and_ne_of_minimalPeriod (minimalPeriod_lfsrNext hv)⟩

/-! ### `SEED` (R227) -/

theorem legality_seed_eq_ok_iff (seed : Word32) (f : Fsm) :
    legality (.seed seed) f = .ok ↔ f = .idle ∨ f = .messageLoaded ∨ f = .encoded := by
  cases f <;> simp [legality]

theorem exec_seed_of_ok (seed : Word32) {s : State} (hs : s.fsm = .idle ∨ s.fsm = .messageLoaded ∨ s.fsm = .encoded) :
    exec (.seed seed) s = .next { s with lfsr := rngSeed s.lfsr seed } :=
  exec_of_done ((legality_seed_eq_ok_iff seed s.fsm).2 hs) rfl

/-- Settles O19: the word, the two kinds of source, and the row of the table. -/
theorem seedLoadsGenerator : Obligations.SeedLoadsGenerator := by
  refine fun sd s => ⟨encode_toNat (op := 7) rfl rfl, fun hs => ⟨fun v hv => ?_, fun n hn => ?_⟩, fun hs => ?_,
    fun hs => exec_in_fault hs (by simp)⟩
  · rw [exec_seed_of_ok sd hs, hv, ← lfsrSeed_eq]
    rfl
  · rw [exec_seed_of_ok sd hs, hn]
    rfl
  · exact exec_of_seqEntry (by obtain hs | hs := hs <;> rw [hs] <;> rfl)

/-! ### `NOISE` (R228, R284) -/

/-- Settles O20: the word, the two sides of the threshold's bound, and the row of the table. -/
theorem noisePassesFrameThroughChannel : Obligations.NoisePassesFrameThroughChannel := by
  refine fun T s => ⟨encode_toNat (op := 8) rfl rfl, fun hs hT => ?_, fun hs hT => ?_, fun hs => ?_,
    fun hs => exec_in_fault hs (by simp)⟩
  · rw [exec_noise_of_encoded T hs, if_neg (Nat.not_lt.2 hT)]
  · rw [exec_noise_of_encoded T hs, if_pos hT]
    rfl
  · exact exec_of_seqEntry (by obtain hs | hs | hs | hs := hs <;> rw [hs] <;> rfl)

end Sys2Proof.Machine
end

section
/-! PROOFS of `spec/44_framebuilder_control.md`: the transitions of `fsm` (R251), the legality table (R252), `NOP`,
`CLR` and `FRAME` (R253 to R255), the record in `Framed` (R256), the two pipelines (R257), and the step (R259).

Two facts carry the table. A command that is performed ends where its row of R251 says (`commandBody_fsm`), and its
pseudocode raises the first of the conditions R293 lists for it (`commandBody_eq_error_iff`). With the table's errors
they say of every command where it takes `fsm` (`exec_fsm_cases`). A pipeline is run in three parts: the loading of the
message, one encoder, and the channel with `FRAME`. -/

namespace Sys2Proof.Machine

/-! ### One step (R259) -/

/-- Settles O6: `step_of_decoded`. -/
theorem stepRunsDecodedCommand : Obligations.StepRunsDecodedCommand :=
  fun _ _ _ _ hp hr hv hd => step_of_decoded hp hr hv hd

theorem step_of_nil {s : State} (hp : s.port = []) : step s = .next s := by
  simp [step, fetch_nil hp]

/-- The step on a cycle without reset and without a command. -/
theorem step_of_quiet {s : State} {c : PortCycle} {rest : List PortCycle} (hp : s.port = c :: rest)
    (hr : c.rst = false) (hv : c.cmdValid = false) : step s = .next { s with port := rest } := by
  simp [step, fetch_quiet hp hr hv]

/-- Settles O7: both kinds of step without a command. -/
theorem stepWithoutCommandChangesNothing : Obligations.StepWithoutCommandChangesNothing :=
  ⟨fun _ hp => step_of_nil hp, fun _ _ _ hp hr hv => step_of_quiet hp hr hv⟩

theorem exec_total (i : Instr) (s : State) : ∃ t, exec i s = .next t := ⟨_, exec_eq_perform i s⟩

theorem step_total (s : State) : ∃ t, step s = .next t := by
  unfold step
  split
  · exact ⟨_, rfl⟩
  · split
    · exact exec_total _ _
    · exact ⟨_, rfl⟩

/-- Settles O8: a command is one `perform`, and so is every other cycle one next state. -/
theorem stepAlwaysGivesNextState : Obligations.StepAlwaysGivesNextState := ⟨step_total, exec_total⟩

/-! ### `NOP` (R253) -/

theorem legality_nop_eq_ok_iff (f : Fsm) : legality .nop f = .ok ↔ f ≠ .fault := by
  cases f <;> simp [legality]

theorem exec_nop (s : State) : exec .nop s = .next s := by
  by_cases hs : s.fsm = .fault
  · exact exec_in_fault hs (by simp)
  · exact exec_of_done ((legality_nop_eq_ok_iff s.fsm).2 hs) rfl

/-- Settles O12: the word, R94's condition at opcode 0, and `exec_nop`. -/
theorem nopChangesNothing : Obligations.NopChangesNothing := by
  refine ⟨encode_toNat (op := 0) rfl rfl, fun w hop hw => ?_, exec_nop⟩
  refine (exists_decode_eq_error_iff w).2 ((not_wordWellFormed_iff w).2 (.inr (.inl ⟨.inl hop, ?_⟩)))
  omega

/-! ### `FRAME` (R255) -/

theorem exec_frame_of_noised {s : State} (hs : s.fsm = .noised) : exec .frame s = .next { s with fsm := .framed } :=
  exec_of_done ((legality_frame_eq_ok_iff s.fsm).2 hs) rfl

/-- Settles O21: the word and the row of the table. -/
theorem frameDeclaresRecordFinal : Obligations.FrameDeclaresRecordFinal := by
  refine ⟨encode_toNat (op := 9) rfl rfl, fun s => ⟨fun hs => ⟨exec_frame_of_noised hs, rfl⟩, fun hs => ?_,
    fun hs => exec_in_fault hs (by simp)⟩⟩
  exact exec_of_seqEntry (by obtain hs | hs | hs | hs := hs <;> rw [hs] <;> rfl)

/-! ### The cells of the table (R252) -/

theorem legality_eq_ok {i : Instr} {f : Fsm} (hf : f ≠ .fault ∨ i = .clr) (hseq : seqEntry f i = false)
    (hempty : emptyEntry f i = false) : legality i f = .ok := by
  cases hl : legality i f with
  | ok => rfl
  | ign =>
    obtain ⟨hfault, hi⟩ := (legality_eq_ign_iff i f).1 hl
    exact absurd hf (not_or.2 ⟨not_not.2 hfault, hi⟩)
  | seq => exact absurd ((legality_eq_seq_iff i f).1 hl) (by simp [hseq])
  | empty => exact absurd ((legality_eq_empty_iff i f).1 hl) (by simp [hempty])

/-- In `Fault` only `CLR` is performed. -/
theorem eq_clr_of_legality_fault {i : Instr} (h : legality i .fault = .ok) : i = .clr := by
  by_contra hi
  cases h.symm.trans ((legality_eq_ign_iff i .fault).2 ⟨rfl, hi⟩)

theorem exec_of_emptyEntry {i : Instr} {s : State} (h : emptyEntry s.fsm i = true) :
    exec i s = .next (raiseError .emptyMessage s) := by
  rw [exec_eq_perform, perform_empty _ ((legality_eq_empty_iff i s.fsm).2 h)]

theorem takeReserved_eq (s : State) :
    takeReserved s = if s.fsm = .fault then s else raiseError .illegalCommand s := by
  obtain ⟨hs, ht⟩ | ⟨hs, ht⟩ := takeReserved_cases s
  · rw [ht, if_pos hs]
  · rw [ht, if_neg hs]

/-! ### The transitions (R251) -/

/-- A command that is performed and raises nothing takes `fsm` along its row, if it has one. -/
theorem commandBody_fsm {i : Instr} {s t : State} (hl : legality i s.fsm = .ok) (hb : commandBody i s = .ok t) :
    t.fsm = (fsmRow s.fsm i).getD s.fsm := by
  obtain ⟨-, -, -, -, -, -, -, -, -, -, hfsm⟩ := commandBody_ok hb
  rw [hfsm]
  cases i with
  | nop | clr | decb | seed _ => rfl
  | putb b => simp [fsmRow, (legality_putb_eq_ok_iff b s.fsm).1 hl]
  | putsym b => simp [fsmRow, (legality_putsym_eq_ok_iff b s.fsm).1 hl]
  | enccrc => simp [fsmRow, (legality_enccrc_eq_ok_iff s.fsm).1 hl]
  | encham kop => simp [fsmRow, (legality_encham_eq_ok_iff kop s.fsm).1 hl]
  | noise T => simp [fsmRow, (legality_noise_eq_ok_iff T s.fsm).1 hl]
  | frame => simp [fsmRow, (legality_frame_eq_ok_iff s.fsm).1 hl]

/-- Only `CLR` has a row from `Fault` or `Framed`. -/
theorem fsmRow_eq_none {f : Fsm} {i : Instr} (hf : f = .fault ∨ f = .framed) (hi : i ≠ .clr) : fsmRow f i = none := by
  cases i with
  | nop | decb | seed _ => rfl
  | clr => exact absurd rfl hi
  | putb _ | putsym _ | enccrc | encham _ | noise _ | frame => obtain rfl | rfl := hf <;> rfl

/-- `CLR` raises nothing, so an error is only raised outside `Fault`. -/
theorem ne_fault_of_commandBody_error {i : Instr} {s : State} {e : ErrKind} (hl : legality i s.fsm = .ok)
    (hb : commandBody i s = .error e) : s.fsm ≠ .fault := by
  intro hs
  rw [hs] at hl
  rw [eq_clr_of_legality_fault hl] at hb
  cases hb

theorem ne_fault_of_seqEntry {i : Instr} {f : Fsm} (h : seqEntry f i = true) : f ≠ .fault := by
  rintro rfl; cases h

theorem ne_fault_of_emptyEntry {i : Instr} {f : Fsm} (h : emptyEntry f i = true) : f ≠ .fault := by
  rintro rfl; cases h

/-- Where a command takes `fsm`: along its row, or into `Fault` with an error recorded. -/
theorem exec_fsm_cases {i : Instr} {s t : State} (h : exec i s = .next t) :
    t.fsm = (fsmRow s.fsm i).getD s.fsm ∨ (s.fsm ≠ .fault ∧ t.fsm = .fault ∧ t.err ≠ .noError) := by
  obtain ⟨hs, hi, rfl⟩ | ⟨hseq, rfl⟩ | ⟨hempty, rfl⟩ | ⟨hl, hb⟩ | ⟨hl, e, hb, rfl⟩ := exec_cases h
  · left; rw [fsmRow_eq_none (.inl hs) hi, Option.getD_none]
  · exact .inr ⟨ne_fault_of_seqEntry hseq, rfl, by simp⟩
  · exact .inr ⟨ne_fault_of_emptyEntry hempty, rfl, by simp⟩
  · exact .inl (commandBody_fsm hl hb)
  · exact .inr ⟨ne_fault_of_commandBody_error hl hb, rfl, commandBody_error_ne_noError hb⟩

/-- Settles O23: `exec_fsm_cases`, with the row as it is named in each clause. -/
theorem fsmMovesOnlyAsListed : Obligations.FsmMovesOnlyAsListed := by
  intro i s t h
  obtain hrow | ⟨hs, ht, herr⟩ := exec_fsm_cases h
  · refine ⟨fun hmoved => .inl ?_, fun g hg => .inl (by rw [hrow, hg, Option.getD_some]), fun hi => .inl ?_⟩
    · cases hg : fsmRow s.fsm i with
      | none => exact absurd (by rw [hrow, hg, Option.getD_none]) hmoved
      | some g => rw [hrow, hg, Option.getD_some]
    · have hnone : fsmRow s.fsm i = none := by obtain rfl | rfl | ⟨sd, rfl⟩ := hi <;> rfl
      rw [hrow, hnone, Option.getD_none]
  · exact ⟨fun _ => .inr ⟨hs, ht, herr⟩, fun _ _ => .inr ⟨hs, ht⟩, fun _ => .inr ⟨hs, ht⟩⟩

/-! ### The conditions a command checks itself (R293, priorities 4 and 5) -/

theorem capacityErrors_of_unwritten {i : Instr} {s : State} (hw : writtenLength i s = none) :
    capacityErrors i s = [] := by
  cases hcap : s.cap <;> simp [capacityErrors, hcap, hw]

theorem capacityErrors_of_fits {i : Instr} {s : State} {n : Nat} (hw : writtenLength i s = some n)
    (h : fits s.cap n) : capacityErrors i s = [] := by
  cases hcap : s.cap with
  | none => simp [capacityErrors, hcap]
  | some c => simpa [capacityErrors, hcap, hw] using h c hcap

theorem capacityErrors_of_not_fits {i : Instr} {s : State} {n : Nat} (hw : writtenLength i s = some n)
    (h : ¬ fits s.cap n) : capacityErrors i s = [.capacityExceeded] := by
  obtain ⟨c, hcap, hc⟩ := (exceedsCap_eq_true_iff s.cap n).1 ((exceedsCap_eq_true_iff_not_fits s.cap n).2 h)
  simp [capacityErrors, hcap, hw, hc]

/-- A pseudocode that has only the capacity left to check. -/
theorem eq_error_iff_of_capacity {i : Instr} {s t : State} {n : Nat} {e : ErrKind} {x : Except ErrKind State}
    (hnone : operandErrors i s = []) (hw : writtenLength i s = some n) (hdone : fits s.cap n → x = .ok t)
    (hfull : ¬ fits s.cap n → x = .error .capacityExceeded) :
    x = .error e ↔ (operandErrors i s ++ capacityErrors i s).head? = some e := by
  by_cases hfits : fits s.cap n
  · simp [hdone hfits, hnone, capacityErrors_of_fits hw hfits]
  · simp [hfull hfits, hnone, capacityErrors_of_not_fits hw hfits]

theorem putsymBody_eq_error_iff (b : Octet) (s : State) (e : ErrKind) : putsymBody b s = .error e ↔
    (operandErrors (.putsym b) s ++ capacityErrors (.putsym b) s).head? = some e := by
  by_cases hsym : b.toNat ≠ 0x30 ∧ b.toNat ≠ 0x31
  · simp [putsymBody_of_not_symbol (symbolBit_eq_none hsym.1 hsym.2), operandErrors, hsym]
  · obtain ⟨v, hv⟩ : ∃ v, symbolBit b = some v := by
      obtain h0 | h1 := Decidable.or_iff_not_not_and_not.2 hsym
      · exact ⟨false, symbolBit_eq_some_false h0⟩
      · exact ⟨true, symbolBit_eq_some_true h1⟩
    exact eq_error_iff_of_capacity (if_neg hsym) rfl (putsymBody_of_fits hv) (putsymBody_of_not_fits hv)

theorem enchamBody_eq_error_iff (kop : Operand36) (s : State) (e : ErrKind) : enchamBody kop s = .error e ↔
    (operandErrors (.encham kop) s ++ capacityErrors (.encham kop) s).head? = some e := by
  by_cases hkop : kop.toNat = 0 ∨ 64 < kop.toNat
  · simp [enchamBody_of_illegal hkop, operandErrors, hkop]
  · have hk : 1 ≤ kop.toNat := by omega
    have hk' : kop.toNat ≤ 64 := by omega
    have hlen : writtenLength (.encham kop) s = some (encodeStream s.M kop.toNat).frame.length :=
      congrArg some (encodeStream_frame_length s.M kop.toNat).symm
    exact eq_error_iff_of_capacity (if_neg hkop) hlen (enchamBody_of_fits hk hk') (enchamBody_of_not_fits hk hk')

/-- A command's pseudocode raises the first condition of its own that holds, and nothing if none holds. -/
theorem commandBody_eq_error_iff (i : Instr) (s : State) (e : ErrKind) :
    commandBody i s = .error e ↔ (operandErrors i s ++ capacityErrors i s).head? = some e := by
  cases i with
  | nop | clr | seed _ | frame =>
    rw [capacityErrors_of_unwritten rfl]
    exact iff_of_false nofun nofun
  | putb b => exact eq_error_iff_of_capacity rfl rfl (putbBody_of_fits b) (putbBody_of_not_fits b)
  | putsym b => exact putsymBody_eq_error_iff b s e
  | decb =>
    rw [capacityErrors_of_unwritten rfl]
    by_cases hM : s.M.length % 8 = 0
    · simp [commandBody, decbBody_of_octets (bitsToBytes_eq_some hM), operandErrors, hM]
    · simp [commandBody, decbBody_of_not_octets hM, operandErrors, hM]
  | enccrc => exact eq_error_iff_of_capacity rfl rfl enccrcBody_of_fits enccrcBody_of_not_fits
  | encham kop => exact enchamBody_eq_error_iff kop s e
  | noise T =>
    rw [capacityErrors_of_unwritten rfl]
    by_cases hT : 0x100000000 < T.toNat <;> simp [commandBody, noiseBody_eq, operandErrors, hT]

/-- A command that is performed and raises nothing is not in `Fault` after it. -/
theorem commandBody_fsm_ne_fault {i : Instr} {s t : State} (hl : legality i s.fsm = .ok)
    (hb : commandBody i s = .ok t) : t.fsm ≠ .fault := by
  obtain ⟨-, -, -, -, -, -, -, -, -, -, hfsm⟩ := commandBody_ok hb
  by_cases hi : i = .clr
  · subst hi; simp [hfsm]
  · have hs : s.fsm ≠ .fault := fun hs => hi (eq_clr_of_legality_fault (hs ▸ hl))
    cases i <;> simp [hfsm, hs]

/-- Settles O22: each kind of cell by its `exec` lemma; in an ok cell the pseudocode succeeds along its row of R251, or
raises its first condition by `commandBody_eq_error_iff`. -/
theorem legalityTableHolds : Obligations.LegalityTableHolds := by
  refine ⟨fun i s => ⟨exec_in_fault, exec_of_seqEntry, exec_of_emptyEntry, fun hs hseq hempty => ?ok⟩, takeReserved_eq⟩
  case ok =>
    have hl := legality_eq_ok hs hseq hempty
    have hraises := commandBody_eq_error_iff i s
    cases hb : commandBody i s with
    | ok t =>
      refine ⟨t, exec_of_done hl hb, fun _ => ⟨rfl, commandBody_fsm hl hb⟩, fun e others hheld => ?_,
        fun hfault => absurd hfault (commandBody_fsm_ne_fault hl hb)⟩
      exact absurd ((hraises e).2 (by rw [hheld]; rfl)) (by simp [hb])
    | error e =>
      have hhead := (hraises e).1 hb
      refine ⟨raiseError e s, exec_of_raises hl hb, fun hnone => ?_, fun e' others hheld => ?_, fun _ => ?_⟩
      · simp [hnone] at hhead
      · rw [hheld] at hhead
        cases hhead
        rfl
      · obtain ⟨rfl, -⟩ | ⟨rfl, -⟩ | ⟨rfl, -⟩ | ⟨rfl, -⟩ | ⟨rfl, -⟩ := commandBody_error hb <;> simp

/-! ### `CLR` (R254) -/

/-- In `Idle` there is nothing to clear: R37 (b), and no encoder has run. -/
theorem clearRun_of_idle {s : State} (hi : Inv s) (hs : s.fsm = .idle) : clearRun s = s := by
  obtain ⟨hM, hlen, hF, hB, halgo⟩ := hi.idleEmpty hs
  obtain ⟨hcrc, hk, hr, hpad⟩ := hi.noEncoderYet (by rw [hs]; rfl)
  have herr := inv_err_of_ne_fault hi (by simp [hs])
  cases s
  simp_all [clearRun, memClear]

/-- Settles O13: `exec_clr`; no other command has a row from `Fault` or `Framed`, so `exec_fsm_cases` leaves only an
error. -/
theorem clrStartsNewRun : Obligations.ClrStartsNewRun := by
  refine ⟨encode_toNat (op := 1) rfl rfl, exec_clr, fun s hi hs => ?idle, fun i s t hs h hmoved => ?leaves⟩
  case idle => rw [exec_clr, clearRun_of_idle hi hs]
  case leaves =>
    refine or_iff_not_imp_left.2 fun hclr => ?_
    obtain hrow | ⟨hnofault, ht, -⟩ := exec_fsm_cases h
    · rw [fsmRow_eq_none hs hclr] at hrow
      exact absurd hrow hmoved
    · exact ⟨hs.resolve_left hnofault, ht⟩

/-! ### The record (R99, R256) -/

theorem recordOf_of_framed {s : State} (hs : s.fsm = .framed) : recordOf s = some
    { msgLen := s.msgLen, algo := s.algo, frameBits := s.F, padBits := s.padBits, r := s.r, k := s.k,
      crcValue := s.crc } :=
  if_pos ((recValid_eq_true_iff s).2 hs)

theorem recordOf_eq_none {s : State} (hs : s.fsm ≠ .framed) : recordOf s = none :=
  if_neg (mt (recValid_eq_true_iff s).1 hs)

theorem seqEntry_framed {i : Instr} (hnop : i ≠ .nop) (hclr : i ≠ .clr) : seqEntry .framed i = true := by
  cases i with
  | nop => exact absurd rfl hnop
  | clr => exact absurd rfl hclr
  | _ => rfl

/-- What a cycle with neither reset nor `CLR` does in `Framed`: nothing for `NOP` or without a command, and an error for
every other word. -/
theorem step_from_framed {s : State} {c : PortCycle} {rest : List PortCycle} (hs : s.fsm = .framed)
    (hp : s.port = c :: rest) (hr : c.rst = false) (hclr : ¬ (c.cmdValid = true ∧ decode c.cmd = .ok .clr)) :
    ((c.cmdValid = false ∨ decode c.cmd = .ok .nop) ∧ step s = .next { s with port := rest }) ∨
    (c.cmdValid = true ∧ decode c.cmd ≠ .ok .nop ∧ ∃ e, step s = .next (raiseError e { s with port := rest })) := by
  cases hv : c.cmdValid with
  | false => exact .inl ⟨.inl rfl, step_of_quiet hp hr hv⟩
  | true =>
    cases hd : decode c.cmd with
    | error e =>
      refine .inr ⟨rfl, nofun, .illegalCommand, ?_⟩
      rw [step_of_reserved hp hr hv ⟨e, hd⟩, takeReserved_eq, if_neg (by simp [hs])]
    | ok i =>
      rw [step_of_decoded hp hr hv hd]
      by_cases hnop : i = .nop
      · subst hnop
        exact .inl ⟨.inr rfl, exec_nop _⟩
      · have hi : i ≠ .clr := by
          rintro rfl
          exact hclr ⟨hv, hd⟩
        refine .inr ⟨rfl, by simpa using hnop, .sequenceError, exec_of_seqEntry ?_⟩
        exact hs ▸ seqEntry_framed hnop hi

/-- Settles O54: the record by `recValid_eq_true_iff`, its values by R37 (c) and (d), and the steps by
`step_from_framed`. -/
theorem framedRecordStays : Obligations.FramedRecordStays := by
  refine ⟨fun s => recordOf_of_framed, fun s => recordOf_eq_none, fun s hi hs => ?values,
    fun s t c rest hs hp hr hclr h => ?stays⟩
  case values =>
    have hframe : hasFrame s.fsm = true := by rw [hs]; rfl
    obtain ⟨halgo, -, -⟩ := hi.frameThere hframe
    refine ⟨halgo, fun hcrc32 => ?_⟩
    obtain ⟨hcrc, -, hk, hr, hpad, -⟩ := hi.crcFrame hframe hcrc32
    exact ⟨hpad, hr, hk, hcrc⟩
  case stays =>
    obtain ⟨hquiet, hstep⟩ | ⟨hv, hnop, e, hstep⟩ := step_from_framed hs hp hr hclr
    · cases hstep.symm.trans h
      refine ⟨rfl, rfl, rfl, rfl, rfl, rfl, rfl, fun _ => ⟨rfl, rfl⟩, fun hv hnop => ?_⟩
      exact absurd hquiet (by simp [hv, hnop])
    · cases hstep.symm.trans h
      refine ⟨rfl, rfl, rfl, rfl, rfl, rfl, rfl, fun hquiet => ?_, fun _ _ => ⟨rfl, recordOf_eq_none nofun⟩⟩
      exact absurd hquiet (by simp [hv, hnop])

/-! ### The pipelines (R257) -/

/-- The state after `CLR` and the loading of `x`, with the cycles still to present. -/
def messageOf (x : List Octet) (s : State) (port : List PortCycle) : State :=
  { clearRun s with M := bytesToBits x, msgLen := x.length, fsm := .messageLoaded, port := port }

/-- The state after `NOISE T` and `FRAME` on a frame. -/
def framedThrough (T : Operand36) (s : State) (port : List PortCycle) : State :=
  { s with
    F := (bscApply rngNext T s.F s.lfsr).1, lfsr := (bscApply rngNext T s.F s.lfsr).2, fsm := .framed, port := port }

/-- `CLR` and `PUTB` of each octet, whatever the state before. -/
theorem run_clr_putb {x : List Octet} {s : State} {n : Nat} {commands : List Instr} {rest : List PortCycle}
    (hx : x ≠ []) (hfits : fits s.cap (8 * x.length))
    (hp : s.port = presentAll ([.clr] ++ x.map .putb ++ commands) ++ rest) :
    Sys2Proof.core.run (x.length + n + 1) s =
      Sys2Proof.core.run n (messageOf x s (presentAll commands ++ rest)) := by
  have hclr := run_presentAll_cons (n := x.length + n) (commands := x.map .putb ++ commands) hp (exec_clr _)
  have hload := run_putb_from_idle (s := clearRun { s with port := presentAll (x.map .putb ++ commands) ++ rest })
    (n := n) rfl rfl hfits rfl
  rw [if_neg hx, clearRun_msgLen, Nat.zero_add] at hload
  exact hclr.trans hload

/-- `NOISE` and `FRAME` once there is a frame. -/
theorem run_noise_frame {T : Operand36} {s : State} {rest : List PortCycle} (hs : s.fsm = .encoded)
    (hT : T.toNat ≤ 0x100000000) (hp : s.port = presentAll [.noise T, .frame] ++ rest) :
    Sys2Proof.core.run 2 s = .next (framedThrough T s rest) := by
  have hnoise := exec_noise_of_encoded T (s := { s with port := presentAll [.frame] ++ rest }) hs
  rw [if_neg (Nat.not_lt.2 hT)] at hnoise
  rw [run_presentAll_cons hp hnoise]
  exact run_presentAll_cons (commands := []) rfl (exec_frame_of_noised rfl)

/-- A whole pipeline around one encoder `i`, which makes `t` of the loaded message. -/
theorem run_pipeline {x : List Octet} {T : Operand36} {s t : State} {i : Instr} {rest : List PortCycle} (hx : x ≠ [])
    (hT : T.toNat ≤ 0x100000000) (hfits : fits s.cap (8 * x.length))
    (hp : s.port = presentAll ([.clr] ++ x.map .putb ++ [i, .noise T, .frame]) ++ rest)
    (henc : exec i (messageOf x s (presentAll [.noise T, .frame] ++ rest)) = .next t) (ht : t.fsm = .encoded) :
    Sys2Proof.core.run (x.length + 4) s = .next (framedThrough T t rest) := by
  obtain ⟨-, -, -, -, -, -, -, hport⟩ := onlyListedCommandsWriteState _ _ _ henc
  rw [run_clr_putb (n := 3) hx hfits hp, run_presentAll_cons rfl henc]
  exact run_noise_frame ht hT hport

/-- Settles O57: `run_pipeline` with what each encoder makes of the message. -/
theorem pipelineMakesRecord : Obligations.PipelineMakesRecord := by
  intro x T s rest hx hT M
  refine ⟨fun hfits hp => ?crc, fun kk hk hk' hmessage hfits hp => ?hamming⟩
  case crc =>
    have henc := exec_enccrc_of_fits (s := messageOf x s (presentAll [.noise T, .frame] ++ rest)) rfl
      (by simpa [messageOf] using hfits)
    rw [run_pipeline hx hT (fits_of_fits_of_le hfits (by omega)) hp henc rfl]
    rfl
  case hamming =>
    have henc := exec_of_done (s := messageOf x s (presentAll [.noise T, .frame] ++ rest))
      ((legality_encham_eq_ok_iff kk _).2 rfl) (enchamBody_of_fits hk hk' hfits)
    obtain ⟨hkreg, hrreg, hpadreg⟩ := hamming_registers_fit hk hk' M.length
    exact ⟨_, run_pipeline hx hT hmessage hp henc rfl, rfl, rfl, rfl, rfl, rfl, rfl, rfl, hkreg, hrreg, hpadreg, rfl,
      rfl, rfl⟩

end Sys2Proof.Machine
end

section
/-! PROOFS of `spec/60_exceptions.md`: the error kinds and what raises them (R280), fault entry (R290), the state `Fault`
(R291, R292), and the order of priority (R293).

`Raises` says which error a command raises in a state, by its cell of the table or its pseudocode. What a command does
outside `Fault` follows from it alone: it raises such an error and does nothing else, or it ends outside `Fault`
(`exec_raises_or_ne_fault`). By the table and `commandBody_eq_error_iff` the kind raised is the head of `heldErrors`. -/

namespace Sys2Proof.Machine

/-! ### What raises an error (R280) -/

/-- The command raises the error in this state: by its entry of the table of R252, or by its pseudocode. -/
def Raises (i : Instr) (s : State) (e : ErrKind) : Prop :=
  (legality i s.fsm = .empty ∧ e = .emptyMessage) ∨ (legality i s.fsm = .seq ∧ e = .sequenceError) ∨
  (legality i s.fsm = .ok ∧ commandBody i s = .error e)

theorem Raises.exec_eq {i : Instr} {s : State} {e : ErrKind} (h : Raises i s e) :
    exec i s = .next (raiseError e s) := by
  obtain ⟨hl, rfl⟩ | ⟨hl, rfl⟩ | ⟨hl, hb⟩ := h
  · exact exec_of_emptyEntry ((legality_eq_empty_iff i s.fsm).1 hl)
  · exact exec_of_seqEntry ((legality_eq_seq_iff i s.fsm).1 hl)
  · exact exec_of_raises hl hb

/-- All that a command can do outside `Fault`. -/
theorem exec_raises_or_ne_fault {i : Instr} {s t : State} (h : exec i s = .next t) (hs : s.fsm ≠ .fault) :
    (∃ e, Raises i s e ∧ t = raiseError e s) ∨ t.fsm ≠ .fault := by
  obtain ⟨hfault, -, -⟩ | ⟨hseq, rfl⟩ | ⟨hempty, rfl⟩ | ⟨hl, hb⟩ | ⟨hl, e, hb, rfl⟩ := exec_cases h
  · exact absurd hfault hs
  · exact .inl ⟨_, .inr (.inl ⟨(legality_eq_seq_iff i s.fsm).2 hseq, rfl⟩), rfl⟩
  · exact .inl ⟨_, .inl ⟨(legality_eq_empty_iff i s.fsm).2 hempty, rfl⟩, rfl⟩
  · exact .inr (commandBody_fsm_ne_fault hl hb)
  · exact .inl ⟨e, .inr (.inr ⟨hl, hb⟩), rfl⟩

theorem exec_into_fault {i : Instr} {s t : State} (h : exec i s = .next t) (hs : s.fsm ≠ .fault)
    (ht : t.fsm = .fault) : ∃ e, Raises i s e ∧ t = raiseError e s :=
  (exec_raises_or_ne_fault h hs).resolve_right (not_not.2 ht)

theorem Raises.ne_noError {i : Instr} {s : State} {e : ErrKind} (h : Raises i s e) : e ≠ .noError := by
  obtain ⟨-, rfl⟩ | ⟨-, rfl⟩ | ⟨-, hb⟩ := h
  · decide
  · decide
  · exact commandBody_error_ne_noError hb

/-- The entry `Empty` stands in the rows of the two encoders only. -/
theorem eq_encoder_of_legality_empty {i : Instr} {f : Fsm} (h : legality i f = .empty) :
    i = .enccrc ∨ ∃ kop, i = .encham kop := by
  have hempty := (legality_eq_empty_iff i f).1 h
  cases f with
  | idle => exact (emptyEntry_idle_iff i).1 hempty
  | messageLoaded | encoded | noised | framed | fault => cases hempty

/-- The rows of `NOP` and `CLR` have no entry `Seq`. -/
theorem ne_nop_clr_of_legality_seq {i : Instr} {f : Fsm} (h : legality i f = .seq) : i ≠ .nop ∧ i ≠ .clr := by
  constructor
  · rintro rfl; cases f <;> cases h
  · rintro rfl; cases h

/-- Settles O27: the codes by their table, and the kinds by the three ways to raise one; the pseudocode's own kinds are
those of `commandBody_error`. -/
theorem commandsRaiseOnlyListedErrors : Obligations.CommandsRaiseOnlyListedErrors := by
  refine ⟨⟨rfl, rfl, rfl, rfl, rfl, rfl, rfl, rfl, rfl⟩, fun i s t h hs ht => ?_⟩
  obtain ⟨e, hraises, rfl⟩ := exec_into_fault h hs ht
  obtain ⟨hl, rfl⟩ | ⟨hl, rfl⟩ | ⟨-, hb⟩ := hraises
  · exact .inr (.inr (.inr (.inr (.inl ⟨rfl, eq_encoder_of_legality_empty hl⟩))))
  · exact .inr (.inr (.inr (.inr (.inr (.inl ⟨rfl, ne_nop_clr_of_legality_seq hl⟩)))))
  · obtain hkind | hkind | hkind | hkind | hkind := commandBody_error hb
    · exact .inl hkind
    · exact .inr (.inl hkind)
    · exact .inr (.inr (.inl hkind))
    · exact .inr (.inr (.inr (.inl hkind)))
    · exact .inr (.inr (.inr (.inr (.inr (.inr hkind)))))

/-! ### Fault entry (R290) -/

/-- A step into `Fault` takes one cycle off the port and raises one error. -/
theorem step_into_fault {s t : State} (h : step s = .next t) (hs : s.fsm ≠ .fault) (ht : t.fsm = .fault) :
    ∃ c rest e, s.port = c :: rest ∧ e ≠ .noError ∧ t = raiseError e { s with port := rest } := by
  obtain ⟨-, rfl⟩ | ⟨c, rest, hp, hcycle⟩ := step_cases h
  · exact absurd ht hs
  · obtain ⟨-, rfl⟩ | ⟨-, -, rfl⟩ | ⟨-, -, i, -, hexec⟩ | ⟨-, -, -, rfl⟩ := hcycle
    · cases ht
    · exact absurd ht hs
    · obtain ⟨e, hraises, rfl⟩ := exec_into_fault hexec hs ht
      exact ⟨c, rest, e, hp, hraises.ne_noError, rfl⟩
    · exact ⟨c, rest, .illegalCommand, hp, by decide, by rw [takeReserved_eq, if_neg hs]⟩

/-- Settles O24: `step_into_fault`, with the state that `raiseError` gives written out. -/
theorem faultEntryIsPrecise : Obligations.FaultEntryIsPrecise := by
  intro s t h hs ht
  obtain ⟨c, rest, e, hp, he, htaken⟩ := step_into_fault h hs ht
  exact ⟨c, rest, e, hp, he, htaken, (faultOut_eq_true_iff t).2 ht⟩

/-! ### In `Fault` (R291, R292) -/

/-- In `Fault` a cycle with neither reset nor `CLR` is only taken off the port. -/
theorem step_in_fault {s : State} {c : PortCycle} {rest : List PortCycle} (hs : s.fsm = .fault)
    (hp : s.port = c :: rest) (hr : c.rst = false) (hclr : decode c.cmd ≠ .ok .clr) :
    step s = .next { s with port := rest } := by
  cases hv : c.cmdValid with
  | false => exact step_of_quiet hp hr hv
  | true =>
    cases hd : decode c.cmd with
    | error e => rw [step_of_reserved hp hr hv ⟨e, hd⟩, takeReserved_eq, if_pos hs]
    | ok i => exact (step_of_decoded hp hr hv hd).trans (exec_in_fault hs fun hi => hclr (hi ▸ hd))

theorem step_clr {s : State} {c : PortCycle} {rest : List PortCycle} (hp : s.port = c :: rest) (hr : c.rst = false)
    (hv : c.cmdValid = true) (hd : decode c.cmd = .ok .clr) :
    step s = .next (clearRun { s with port := rest }) := by
  rw [step_of_decoded hp hr hv hd, exec_clr]

/-- The only ways on from `Fault` are reset and `CLR`, and both lead to `Idle`. -/
theorem step_from_fault {s t : State} (hs : s.fsm = .fault) (h : step s = .next t) :
    t.fsm = .fault ∨ t.fsm = .idle := by
  obtain ⟨-, rfl⟩ | ⟨c, rest, hp, ⟨-, rfl⟩ | ⟨-, -, rfl⟩ | ⟨hr, hv, i, hd, -⟩ | ⟨hr, -, ⟨e, hd⟩, -⟩⟩ := step_cases h
  · exact .inl hs
  · exact .inr rfl
  · exact .inl hs
  · by_cases hi : i = .clr
    · cases (step_clr hp hr hv (hi ▸ hd)).symm.trans h
      exact .inr rfl
    · cases (step_in_fault hs hp hr (by simpa [hd] using hi)).symm.trans h
      exact .inl hs
  · cases (step_in_fault hs hp hr (by simp [hd])).symm.trans h
    exact .inl hs

/-- Settles O25: `step_in_fault` and `step_from_fault`; a record stands in `Framed` only. -/
theorem faultStateIgnoresCommands : Obligations.FaultStateIgnoresCommands := by
  intro s hs
  have hframed : s.fsm ≠ .framed := by simp [hs]
  refine ⟨fun c rest hp hr hclr => step_in_fault hs hp hr hclr, fun t => step_from_fault hs, ?_,
    recordOf_eq_none hframed⟩
  exact Bool.eq_false_iff.2 (mt (recValid_eq_true_iff s).1 hframed)

/-! ### The order of priority (R293) -/

theorem heldErrors_of_reserved {w : CmdWord} {d : DecodeError} (hd : decode w = .error d) (s : State) :
    heldErrors w s = [.illegalCommand] := by simp [heldErrors, hd]

/-- The conditions a command can meet, by its entry of the table. -/
theorem heldErrors_of_decoded {w : CmdWord} {i : Instr} (hd : decode w = .ok i) (s : State) :
    heldErrors w s =
      (if legality i s.fsm = .empty then [.emptyMessage] else []) ++
        (if legality i s.fsm = .seq then [.sequenceError] else []) ++ operandErrors i s ++ capacityErrors i s := by
  simp only [heldErrors, hd, legality_eq_empty_iff, legality_eq_seq_iff]

/-- Outside `Fault` the error a command raises is the first condition that holds. -/
theorem head?_heldErrors_eq_some_iff {w : CmdWord} {i : Instr} {s : State} (hd : decode w = .ok i)
    (hs : s.fsm ≠ .fault) (e : ErrKind) : (heldErrors w s).head? = some e ↔ Raises i s e := by
  rw [heldErrors_of_decoded hd, Raises]
  cases hl : legality i s.fsm with
  | ign => exact absurd ((legality_eq_ign_iff i s.fsm).1 hl).1 hs
  | empty => simp [eq_comm]
  | seq => simp [eq_comm]
  | ok => simp [commandBody_eq_error_iff]

/-- What a presented word does outside `Fault`, by the first condition that holds. -/
theorem step_of_heldErrors {s : State} {c : PortCycle} {rest : List PortCycle} (hs : s.fsm ≠ .fault)
    (hp : s.port = c :: rest) (hr : c.rst = false) (hv : c.cmdValid = true) :
    (∀ e others, heldErrors c.cmd s = e :: others → step s = .next (raiseError e { s with port := rest })) ∧
    (heldErrors c.cmd s = [] → ∃ t, step s = .next t ∧ t.fsm ≠ .fault) := by
  cases hd : decode c.cmd with
  | error d =>
    rw [heldErrors_of_reserved hd, step_of_reserved hp hr hv ⟨d, hd⟩, takeReserved_eq, if_neg hs]
    refine ⟨fun e others hheld => ?_, nofun⟩
    cases hheld
    rfl
  | ok i =>
    have hfirst := head?_heldErrors_eq_some_iff (s := { s with port := rest }) hd hs
    rw [step_of_decoded hp hr hv hd]
    refine ⟨fun e others hheld => ((hfirst e).1 (congrArg List.head? hheld)).exec_eq, fun hnone => ?_⟩
    obtain ⟨t, ht⟩ := exec_total i { s with port := rest }
    refine ⟨t, ht, fun hfault => ?_⟩
    obtain ⟨e, hraises, -⟩ := exec_into_fault ht hs hfault
    cases (congrArg List.head? hnone).symm.trans ((hfirst e).2 hraises)

/-- Settles O26: `step_of_heldErrors` outside `Fault`, and in it `step_in_fault` and `step_clr`. -/
theorem firstHeldErrorWins : Obligations.FirstHeldErrorWins := by
  intro s c rest hp hr hv
  exact ⟨fun hs => step_of_heldErrors hs hp hr hv, fun hs hclr => step_in_fault hs hp hr hclr,
    fun _ hclr => ⟨_, step_clr hp hr hv hclr, rfl, rfl⟩⟩

end Sys2Proof.Machine
end

section
/-! PROOFS of `spec/70_reset_and_hazards.md`: a cycle with reset (R320), and the repeatability of the noise (R325 (a)).

Reset is `CLR` with the generator reset too (`hardReset_eq_clearRun`). The noise repeats because the seed alone decides
what a generator of a given kind holds after `SEED`, and `NOISE` reads no other storage than `F` and `lfsr`. -/

namespace Sys2Proof.Machine

/-! ### A cycle with reset (R320) -/

/-- The step on a cycle with reset: the word presented with it plays no part. -/
theorem step_of_reset {s : State} {c : PortCycle} {rest : List PortCycle} (hp : s.port = c :: rest)
    (hr : c.rst = true) : step s = .next (hardReset { s with port := rest }) := by
  simp [step, fetch_reset hp hr]

/-- `CLR` gives the state after reset, but for the generator. -/
theorem exec_clr_eq_hardReset (s : State) : exec .clr s = .next { hardReset s with lfsr := s.lfsr } := by
  rw [exec_clr, hardReset_eq_clearRun]
  rfl

/-- Settles O9: `step_of_reset` with the fields of `hardReset`, and `exec_clr_eq_hardReset`. -/
theorem resetCyclePutsResetValues : Obligations.ResetCyclePutsResetValues := by
  intro s c rest hp hr
  refine ⟨hardReset { s with port := rest }, step_of_reset hp hr, rfl, rfl, rfl, rfl, rfl, rfl, rfl, rfl, rfl, rfl, rfl,
    fun v hv => ?_, fun n hn => ?_, rfl, rfl, exec_clr_eq_hardReset { s with port := rest }⟩
  · rw [hardReset_lfsr, hv]
    rfl
  · rw [hardReset_lfsr, hn]
    rfl

/-! ### The noise after a seed (R325 (a)) -/

/-- What `SEED` loads depends on the kind of the source only, not on what the generator held. -/
theorem rngSeed_eq_of_sameSource {g h : RngState} (hgh : sameSource g h) (seed : Word32) :
    rngSeed g seed = rngSeed h seed := by
  cases g with
  | lfsr v =>
    cases h with
    | lfsr w => rfl
    | external n => exact hgh.elim
  | external m =>
    cases h with
    | lfsr w => exact hgh.elim
    | external n => rfl

/-- In `Encoded` what `NOISE` leaves in `F` and `lfsr`, an error included, is a function of the two. -/
theorem exec_noise_congr {T : Operand36} {s1 s2 u1 u2 : State} (h1 : exec (.noise T) s1 = .next u1)
    (h2 : exec (.noise T) s2 = .next u2) (hs1 : s1.fsm = .encoded) (hs2 : s2.fsm = .encoded) (hF : s1.F = s2.F)
    (hlfsr : s1.lfsr = s2.lfsr) : u1.F = u2.F ∧ u1.lfsr = u2.lfsr := by
  rw [exec_noise_of_encoded T hs1] at h1
  rw [exec_noise_of_encoded T hs2] at h2
  cases h1
  cases h2
  by_cases hT : 0x100000000 < T.toNat
  · simp [hT, hF, hlfsr]
  · simp [hT, hF, hlfsr]

/-- Settles O50: after `SEED` the two cores agree in `F` and `lfsr`, by `rngSeed_eq_of_sameSource`, and `NOISE` keeps
it so. -/
theorem seededNoiseRepeats : Obligations.SeededNoiseRepeats := by
  intro s1 s2 t1 t2 u1 u2 sd T hs1 hs2 hF hsource hseed1 hseed2 hnoise1 hnoise2
  rw [exec_seed_of_ok sd (.inr (.inr hs1))] at hseed1
  rw [exec_seed_of_ok sd (.inr (.inr hs2))] at hseed2
  cases hseed1
  cases hseed2
  exact exec_noise_congr hnoise1 hnoise2 hs1 hs2 hF (rngSeed_eq_of_sameSource hsource sd)

end Sys2Proof.Machine
end

section
/-! PROOFS of `spec/95_test_vectors.md`, part B5: the command words written out there.

A word that decodes is recognised as the encoding of its command. A reserved word has an error by R94, and its opcode
alone says which (`decodeError_eq_of_decode`). -/

namespace Sys2Proof.Machine

/-- Each format accepts a word or refuses it with one reason (R91). -/
theorem eq_of_guard_eq_error {p : Prop} [Decidable p] {i : Instr} {d e : DecodeError}
    (h : (if p then .ok i else .error d : Except DecodeError Instr) = .error e) : e = d := by
  split at h <;> cases h
  rfl

/-- The reason the decoder gives for a refused word is read off the opcode: a must-be-zero bit when the opcode is
assigned, the opcode itself when it is not (R94). -/
theorem decodeError_eq_of_decode {w : CmdWord} {e : DecodeError} (h : decode w = .error e) :
    e = if opcodeOf w ≤ 9 then .mustBeZero (opcodeOf w) else .reservedOpcode (opcodeOf w) := by
  unfold decode at h
  generalize opcodeOf w = op at h ⊢
  split at h
  case h_7 => cases h -- `ENCHAM` and `NOISE` have no must-be-zero bits
  case h_9 => cases h
  case h_11 =>
    cases h
    exact (if_neg (by grind)).symm
  all_goals exact eq_of_guard_eq_error h

/-- An assigned opcode with a must-be-zero bit set is refused for that bit. -/
theorem decode_eq_mustBeZero {w : CmdWord} (hassigned : opcodeAssigned w = true) (hmbz : mbzClear w = false) :
    decode w = .error (.mustBeZero (opcodeOf w)) := by
  obtain ⟨e, he⟩ := (exists_decode_eq_error_iff w).2 (by simp [wordWellFormed, hmbz])
  rw [he, decodeError_eq_of_decode he, if_pos (of_decide_eq_true hassigned)]

/-- A word recognised as the encoding of a command decodes to it. -/
theorem decode_of_encode_eq {w : CmdWord} {i : Instr} (h : encode i = w) : decode w = .ok i :=
  h ▸ decode_encode i

/-- Settles O5: nine of the words are encodings, `decode_of_encode_eq`; in the two others bit 8 and bit 32 must be
zero, `decode_eq_mustBeZero`. -/
theorem writtenWordsDecode : Obligations.WrittenWordsDecode := by
  have reserved_putb : decode 0x20000001FF#40 = .error (.mustBeZero 2) := decode_eq_mustBeZero (by decide) (by decide)
  have reserved_seed : decode 0x7100000000#40 = .error (.mustBeZero 7) := decode_eq_mustBeZero (by decide) (by decide)
  exact ⟨decode_of_encode_eq (i := .clr) (by decide), decode_of_encode_eq (i := .putb _) (by decide),
    decode_of_encode_eq (i := .putsym _) (by decide), decode_of_encode_eq (i := .decb) (by decide),
    decode_of_encode_eq (i := .enccrc) (by decide), decode_of_encode_eq (i := .encham _) (by decide),
    decode_of_encode_eq (i := .seed _) (by decide), decode_of_encode_eq (i := .noise _) (by decide),
    decode_of_encode_eq (i := .frame) (by decide), reserved_putb, reserved_seed⟩

end Sys2Proof.Machine
end
